-- ==== Sys2Proof/Config.lean ====
section
/-! DEFINITION. The parameters of the block (00_scope.md R7) and the values the spec leaves open
(93_implementation_defined.md I1). The width is a parameter `W` of the definitions of the whole
package; where no width is given they stand at its normative value `Config.W` (log entry 4). -/

namespace Sys2Proof

/-- The normative value of `W`, the width of operand A, of operand B and of RES, and the largest code
size (R7, D2). -/
abbrev Config.W : Nat := 64

/-- The width of the SIZE register at width W: `bitlen(W)`, which holds 0 to W (R7, R11). -/
def Config.sizeWidth (W : Nat) : Nat := if W = 0 then 0 else Nat.log2 W + 1

/-- `SIZE_W` at the normative width (R7). -/
abbrev Config.SIZE_W : Nat := Config.sizeWidth Config.W

/-- `OP_W`, the width of the operation select field (R7, D5). -/
abbrev Config.OP_W : Nat := 3

/-- `STATUS_W`, the width of the STATUS register (R7, D7). -/
abbrev Config.STATUS_W : Nat := 2

/-- The width of a command bundle `{OP, B, A}` at width W (30_encoding.md R60). -/
def Config.cmdWidth (W : Nat) : Nat := Config.OP_W + W + W

/-- The width of a bundle at the normative width: 131 (R60). -/
abbrev Config.CMD_W : Nat := Config.cmdWidth Config.W

/-- The two readings of the GR quotient prefix (90_conflicts.md C1, D19). -/
inductive UnaryStyle where
  /-- `q` zero bits, then a one bit: this hardware. -/
  | zerosThenOne
  /-- `q` one bits, then a zero bit: the losing reading of C1. No part of this hardware. -/
  | onesThenZero
deriving DecidableEq, Repr

/-- `GR_UNARY_STYLE`: the normative value is `ZEROS_THEN_ONE` (R7, I6). -/
def Config.grUnaryStyle : UnaryStyle := .zerosThenOne

/-- RES after power-on and before the first reset edge: a free value of its width, one for each
power-on (70_reset_and_hazards.md R173, I1; log entry 3). -/
opaque Config.powerOnRes (W : Nat) : Nat → BitVec W

/-- SIZE after power-on and before the first reset edge: a free value (R173, I1; log entry 3). -/
opaque Config.powerOnSize (W : Nat) : Nat → BitVec (Config.sizeWidth W)

/-- STATUS after power-on and before the first reset edge: a free value (R173, I1; log entry 3). -/
opaque Config.powerOnStatus : Nat → BitVec Config.STATUS_W

/-- RSP_VALID after power-on and before the first reset edge: a free value (R173, I1; log entry 3). -/
opaque Config.powerOnRspValid : Nat → Bool

end Sys2Proof
end

