-- ==== Sys2Proof/Word.lean ====
section
/-! DEFINITION. The word types of the ports and registers (10_state.md R20, R26), at every width `W`
(00_scope.md R7). -/

namespace Sys2Proof

/-- An operand or a result: W bits on parallel wires (20_memory.md R43). -/
abbrev Word (W : Nat := Config.W) := BitVec W

/-- The contents of SIZE. -/
abbrev SizeWord (W : Nat := Config.W) := BitVec (Config.sizeWidth W)

/-- The contents of STATUS. -/
abbrev StatusWord := BitVec Config.STATUS_W

/-- The levels on `cmd_op`. -/
abbrev OpWord := BitVec Config.OP_W

end Sys2Proof
end

