-- ==== Sys2Proof/Syntax.lean ====
section
/-! DEFINITION. The commands of the block, one constructor for each row of spec/opcode_table.json. -/

namespace Sys2Proof

/-- A command: its operation and the two operands presented with it (30_encoding.md R60, R61).
`a` is operand A and `b` operand B. Commands that ignore an operand carry it all the same: every
A and every B spells the command (R65), and the bundle is one and the same format. The
operands are words of the normative width (00_scope.md R7; log entry 4). -/
inductive Instr where
  /-- OP 0b000: Golomb-Rice encode of data A with modulus B (40_golomb.md R80). -/
  | gr (a b : Word)
  /-- OP 0b001: Exp-Golomb encode of data A with order B (41_expgolomb.md R110). -/
  | eg (a b : Word)
  /-- OP 0b010: sign map "normal" of A (42_signmap.md R130). -/
  | mapn (a b : Word)
  /-- OP 0b011: sign map "jls-regular" of A (42_signmap.md R131). -/
  | mapr (a b : Word)
  /-- OP 0b100: sign map "jls-special" of A (42_signmap.md R132). -/
  | maps (a b : Word)
  /-- OP 0b101: reserved, an IllegalOp result (30_encoding.md R65). -/
  | reserved101 (a b : Word)
  /-- OP 0b110: reserved, an IllegalOp result (30_encoding.md R65). -/
  | reserved110 (a b : Word)
  /-- OP 0b111: reserved, an IllegalOp result (30_encoding.md R65). -/
  | reserved111 (a b : Word)
deriving DecidableEq, Repr

end Sys2Proof
end

