-- ==== Sys2Proof/WellFormed.lean ====
section
/-! DEFINITION. Which commands, and which lines of the assembler syntax, are well formed
(30_encoding.md R65, R67). -/

namespace Sys2Proof

/-- Every command is well formed: "For every defined OP, every A and every B value spells that
command; there is no reserved bit pattern in A or B", and a reserved OP spells a command with an
effect of its own (R65). -/
def Instr.wf : Instr → Bool
  | .gr _ _ => true
  | .eg _ _ => true
  | .mapn _ _ => true
  | .mapr _ _ => true
  | .maps _ _ => true
  | .reserved101 _ _ => true
  | .reserved110 _ _ => true
  | .reserved111 _ _ => true

/-- An operand as the assembler syntax writes it (R67). -/
inductive AsmOperand where
  /-- A decimal integer, possibly negative. -/
  | dec (n : Int)
  /-- A `0x` hexadecimal word. -/
  | hex (n : Nat)
  /-- `RES`: the value the host read from RES after the previous command. -/
  | res
deriving DecidableEq, Repr

/-- A line of the assembler syntax (R67). -/
inductive AsmLine where
  | gr (a b : AsmOperand)
  | eg (a b : AsmOperand)
  | mapn (a : AsmOperand)
  | mapr (a : AsmOperand)
  | maps (a : AsmOperand)
  /-- `.cmd op, a, b`: a raw bundle with any OP, the reserved ones among them. -/
  | cmd (op : Nat) (a b : AsmOperand)
deriving DecidableEq, Repr

/-- The literal fits a position read as unsigned (A of GR and EG): `[0, 2^W - 1]` (R67). -/
def AsmOperand.fitsUnsigned (W : Nat) : AsmOperand → Bool
  | .dec n => decide (0 ≤ n) && decide (n < 2 ^ W)
  | .hex n => decide (n < 2 ^ W)
  | .res => true

/-- The literal fits a position read as signed (A of a map command, and B):
`[-2^(W-1), 2^(W-1) - 1]` (R67). A hexadecimal word is W bits as they stand. -/
def AsmOperand.fitsSigned (W : Nat) : AsmOperand → Bool
  | .dec n => decide (-2 ^ (W - 1) ≤ n) && decide (n < 2 ^ (W - 1))
  | .hex n => decide (n < 2 ^ W)
  | .res => true

/-- The literal stands in operand A of a bundle with this OP. The OPs of GR and EG read A as
unsigned, those of the map commands as signed; a reserved OP reads nothing, so a literal that fits
either range is taken (R67; log entry 7). -/
def AsmOperand.fitsA (W op : Nat) (a : AsmOperand) : Bool :=
  if op ≤ 1 then a.fitsUnsigned W
  else if op ≤ 4 then a.fitsSigned W
  else a.fitsUnsigned W || a.fitsSigned W

/-- The literal stands in operand B of a bundle with this OP: B is signed for the defined OPs; a
reserved OP takes either range (R67; log entry 7). -/
def AsmOperand.fitsB (W op : Nat) (b : AsmOperand) : Bool :=
  if op ≤ 4 then b.fitsSigned W else b.fitsUnsigned W || b.fitsSigned W

/-- Each literal fits the range of its place, and a raw OP is one of the eight (R61, R67). -/
def AsmLine.wf (W : Nat := Config.W) : AsmLine → Bool
  | .gr a b => a.fitsA W 0 && b.fitsB W 0
  | .eg a b => a.fitsA W 1 && b.fitsB W 1
  | .mapn a => a.fitsA W 2
  | .mapr a => a.fitsA W 3
  | .maps a => a.fitsA W 4
  | .cmd op a b => decide (op < 8) && a.fitsA W op && b.fitsB W op

end Sys2Proof
end

