-- ==== Sys2Proof/Decode.lean ====
section
/-! DEFINITION. The command bundle, its decoder and its encoder (30_encoding.md R60, R61, R65, R66;
spec/opcode_table.json). The bundle is presented in parallel, so it has no byte order (20_memory.md
R43); its bits are numbered from 0 as R60 numbers them. The format is written over every width `W`;
commands, numbers and the rows of the opcode table are those of the normative width. -/

namespace Sys2Proof

/-- CMD: one bundle `{OP, B, A}`, of 131 bits at the normative width (R60). -/
abbrev Bundle (W : Nat := Config.W) := BitVec (Config.cmdWidth W)

/-- OP: bits 130 to 128 of CMD at the normative width (R60). -/
def Bundle.op {W : Nat} (c : Bundle W) : OpWord := BitVec.extractLsb' (2 * W) Config.OP_W c

/-- B: bits 127 to 64 of CMD at the normative width (R60). -/
def Bundle.b {W : Nat} (c : Bundle W) : Word W := BitVec.extractLsb' W W c

/-- A: bits 63 to 0 of CMD at the normative width (R60). -/
def Bundle.a {W : Nat} (c : Bundle W) : Word W := BitVec.extractLsb' 0 W c

/-- `{OP, B, A}`, OP in the most significant place (R60). -/
def Bundle.make {W : Nat} (op : OpWord) (b a : Word W) : Bundle W := op ++ b ++ a

/-- The command that an OP value selects: the OP map (R61). The eight values are all there are, so
the last row stands for 0b111 alone. -/
def commandOf (op : OpWord) (a b : Word) : Instr :=
  if op = 0b000#3 then .gr a b
  else if op = 0b001#3 then .eg a b
  else if op = 0b010#3 then .mapn a b
  else if op = 0b011#3 then .mapr a b
  else if op = 0b100#3 then .maps a b
  else if op = 0b101#3 then .reserved101 a b
  else if op = 0b110#3 then .reserved110 a b
  else .reserved111 a b

/-- The decoder: total on every CMD bundle, and "needs only OP to select the command" (R60, R62). -/
def decode (c : Bundle) : Instr := commandOf c.op c.a c.b

/-- The OP value of a command (R61). -/
def Instr.opWord : Instr → OpWord
  | .gr _ _ => 0b000#3
  | .eg _ _ => 0b001#3
  | .mapn _ _ => 0b010#3
  | .mapr _ _ => 0b011#3
  | .maps _ _ => 0b100#3
  | .reserved101 _ _ => 0b101#3
  | .reserved110 _ _ => 0b110#3
  | .reserved111 _ _ => 0b111#3

/-- The operand A that a command is presented with. -/
def Instr.a : Instr → Word
  | .gr a _ => a
  | .eg a _ => a
  | .mapn a _ => a
  | .mapr a _ => a
  | .maps a _ => a
  | .reserved101 a _ => a
  | .reserved110 a _ => a
  | .reserved111 a _ => a

/-- The operand B that a command is presented with. -/
def Instr.b : Instr → Word
  | .gr _ b => b
  | .eg _ b => b
  | .mapn _ b => b
  | .mapr _ b => b
  | .maps _ b => b
  | .reserved101 _ b => b
  | .reserved110 _ b => b
  | .reserved111 _ b => b

/-- The encoder: the bundle of a command (R60, R61). -/
def encode (i : Instr) : Bundle := Bundle.make i.opWord i.b i.a

/-- Why a number is no command bundle. -/
inductive DecodeError where
  /-- A bit at position 131 or above is set: the bundle has bits 130 to 0 only (R60, R66). -/
  | widerThanBundle
deriving DecidableEq, Repr

/-- The bundle whose bits a number spells; a number of more than 131 bits is rejected by name. -/
def Bundle.ofNumber (w : Nat) : Except DecodeError Bundle :=
  if w < 2 ^ Config.CMD_W then .ok (BitVec.ofNat Config.CMD_W w) else .error .widerThanBundle

/-- Decoding is total on every number: a command, or a rejection by name. -/
def decodeNumber (w : Nat) : Except DecodeError Instr := (Bundle.ofNumber w).map decode

/-- The bits of a row of spec/opcode_table.json: `w` below `nbits`, and zeros above. -/
def tableNumber (nbits w : Nat) : Nat := w % 2 ^ nbits

/-- The command the decoder reads from the bits of a table row (`none` where it rejects them). The
table numbers the bits of CMD as R60 does (log entry 6). -/
def decodeTableWord (nbits w : Nat) : Option Instr :=
  match decodeNumber (tableNumber nbits w) with
  | .ok i => some i
  | .error _ => none

/-- A row of spec/opcode_table.json: a bundle belongs to the row when `bundle AND mask = match`. -/
structure OpcodeRow where
  mnemonic : String
  pattern : Nat
  mask : Nat
deriving DecidableEq, Repr

/-- The rows of spec/opcode_table.json, each `match` and `mask` as the table prints it. -/
def opcodeTable : List OpcodeRow :=
  [⟨"GR", 0x0, 0x700000000000000000000000000000000⟩,
   ⟨"EG", 0x100000000000000000000000000000000, 0x700000000000000000000000000000000⟩,
   ⟨"MAPN", 0x200000000000000000000000000000000, 0x700000000000000000000000000000000⟩,
   ⟨"MAPR", 0x300000000000000000000000000000000, 0x700000000000000000000000000000000⟩,
   ⟨"MAPS", 0x400000000000000000000000000000000, 0x700000000000000000000000000000000⟩,
   ⟨"reserved_101", 0x500000000000000000000000000000000, 0x700000000000000000000000000000000⟩,
   ⟨"reserved_110", 0x600000000000000000000000000000000, 0x700000000000000000000000000000000⟩,
   ⟨"reserved_111", 0x700000000000000000000000000000000, 0x700000000000000000000000000000000⟩]

/-- The bundle matches the row. -/
def OpcodeRow.matches (r : OpcodeRow) (c : Bundle) : Bool :=
  decide (c &&& BitVec.ofNat Config.CMD_W r.mask = BitVec.ofNat Config.CMD_W r.pattern)

/-- The command's mnemonic, as spec/opcode_table.json spells it. -/
def Instr.mnemonic : Instr → String
  | .gr _ _ => "GR"
  | .eg _ _ => "EG"
  | .mapn _ _ => "MAPN"
  | .mapr _ _ => "MAPR"
  | .maps _ _ => "MAPS"
  | .reserved101 _ _ => "reserved_101"
  | .reserved110 _ _ => "reserved_110"
  | .reserved111 _ _ => "reserved_111"

end Sys2Proof
end

