-- ==== Sys2Proof/Machine/State.lean ====
section
/-! DEFINITION. The state of the block: its four result registers (10_state.md R20) and the levels
that the host drives on its input ports (R26). Plain data. -/

namespace Sys2Proof.Machine

/-- The levels on the input ports, as one rising edge of `clk` samples them (10_state.md R26).
Each is a defined level: an undefined one cannot be written (70_reset_and_hazards.md R177). -/
structure PortLevels (W : Nat) where
  /-- `rst`: synchronous reset, active high. -/
  rst : Bool
  /-- `cmd_valid`: a command is presented this cycle. -/
  cmdValid : Bool
  /-- `cmd_op`: OP. -/
  cmdOp : OpWord
  /-- `cmd_a`: operand A. -/
  cmdA : Word W
  /-- `cmd_b`: operand B. -/
  cmdB : Word W
deriving DecidableEq, Repr

/-- The levels of a block of width W; with no width given, of the normative one. -/
abbrev Ports (W : Nat := Config.W) := PortLevels W

/-- No reset and no command is presented (70_reset_and_hazards.md R178). The command fields are
ignored on such an edge and may hold any value; here they hold zero (log entry 1). -/
def Ports.idle {W : Nat} : Ports W :=
  { rst := false, cmdValid := false, cmdOp := 0, cmdA := 0, cmdB := 0 }

/-- The architectural state and what stands, and will stand, on the input ports, for a block of width
W (00_scope.md R7). -/
structure State.Block (W : Nat) where
  /-- RES: the code word, the mapped value, or 0 (10_state.md R22). -/
  res : Word W
  /-- SIZE: the code size in bits, or 0 (10_state.md R23). -/
  size : SizeWord W
  /-- STATUS: the outcome code of the last accepted command (10_state.md R24). -/
  status : StatusWord
  /-- RSP_VALID: set in the cycle after a command was accepted (10_state.md R25). -/
  rspValid : Bool
  /-- The levels that the next rising edge samples (10_state.md R26). -/
  ports : Ports W
  /-- The model's own: the levels the host drives at the edges after that one, in order
  (log entry 1). -/
  later : List (Ports W)
deriving DecidableEq, Repr

/-- The state of the machine: a block of the normative width (00_scope.md R7; log entry 4). -/
abbrev State := State.Block Config.W

/-- Why the machine stops with a fault. No constructor: errors are results, "not traps", and every
command completes at its accepting edge (60_exceptions.md R150, R158; log entry 10). -/
inductive Fault where
deriving DecidableEq, Repr

/-- Why an instruction has no meaning. -/
inductive Refusal where
  /-- Raised by an arm of `exec` whose command has no meaning yet: none. Safe (the model stops). -/
  | notModelled (mnemonic : String)
deriving DecidableEq, Repr

/-- The block of width W right after a reset edge: RES 0, SIZE 0, STATUS 0b00, RSP_VALID 0
(10_state.md R22 to R25, 70_reset_and_hazards.md R170). What stands on the input ports is the host's:
here nothing is presented (log entry 2). -/
def State.resetAt (W : Nat) : State.Block W :=
  { res := 0, size := 0, status := 0b00, rspValid := false, ports := Ports.idle, later := [] }

/-- The block right after a reset edge, at the normative width. -/
def State.reset : State := State.resetAt Config.W

/-- The block after power-on and before the first reset edge: each register holds a free value, and
the ports are what the host drives (70_reset_and_hazards.md R173, I1; log entry 3). `draw` counts the
power-ons, so that two of them need not agree. -/
def State.powerOn {W : Nat} (draw : Nat) (ports : Ports W) (later : List (Ports W)) : State.Block W :=
  { res := Config.powerOnRes W draw, size := Config.powerOnSize W draw
    status := Config.powerOnStatus draw, rspValid := Config.powerOnRspValid draw
    ports := ports, later := later }

end Sys2Proof.Machine
end

