-- ==== Sys2Proof/Machine/Flags.lean ====
section
/-! DEFINITION. STATUS, the one flag-like register: its codes and the errors that set them
(10_state.md R24, 60_exceptions.md R151). -/

namespace Sys2Proof.Machine

/-- The meanings of STATUS (10_state.md R24). -/
inductive Status where
  /-- The command succeeded. -/
  | ok
  /-- `m <= 0` (GR) or `k < 0` (EG). -/
  | invalidParameter
  /-- The exact result does not fit the register widths. -/
  | overflow
  /-- OP held a reserved value. -/
  | illegalOp
deriving DecidableEq, Repr

/-- The code of each meaning (10_state.md R24). -/
def Status.code : Status → StatusWord
  | .ok => 0b00#2
  | .invalidParameter => 0b01#2
  | .overflow => 0b10#2
  | .illegalOp => 0b11#2

/-- The errors a command can raise (60_exceptions.md R152, R153, R154). -/
inductive CmdError where
  /-- Raised by GR and EG (R152). -/
  | invalidParameter
  /-- Raised by GR, EG and MAPN (R153). -/
  | overflow
  /-- Raised by every reserved OP (R154). -/
  | illegalOp
deriving DecidableEq, Repr

/-- The outcome that an error is reported as (60_exceptions.md R151). -/
def CmdError.status : CmdError → Status
  | .invalidParameter => .invalidParameter
  | .overflow => .overflow
  | .illegalOp => .illegalOp

end Sys2Proof.Machine
end

