-- ==== Sys2Proof/Machine/Operands.lean ====
section
/-! DEFINITION. How a command reads its operands (30_encoding.md R63), with the integer conversions of
00_scope.md R10. -/

namespace Sys2Proof.Machine

/-- `uint(v)`: v as an unsigned integer (00_scope.md R10). -/
def uint {W : Nat} (v : Word W) : Nat := v.toNat

/-- `sint(v)`: v as a two's-complement signed integer (00_scope.md R10). -/
def sint {W : Nat} (v : Word W) : Int := v.toInt

/-- `zext_W(n)`: the W-bit vector of a non-negative integer (00_scope.md R10). Used only after a rule
has checked that n fits. -/
def zextW {W : Nat} (n : Nat) : Word W := BitVec.ofNat W n

/-- `sext_W(n)`: the W-bit two's-complement vector of an integer (00_scope.md R10). -/
def sextW {W : Nat} (n : Int) : Word W := BitVec.ofInt W n

/-- GR and EG read A as `data = uint(A)`: every value is legal (R63). -/
def dataOperand {W : Nat} (a : Word W) : Nat := uint a

/-- GR reads B as `m = sint(B)` and EG as `k = sint(B)`, so that `m <= 0` and `k < 0` can be
presented and rejected (R63). -/
def paramOperand {W : Nat} (b : Word W) : Int := sint b

/-- MAPN, MAPR and MAPS read A as `val = sint(A)` (R63). -/
def valOperand {W : Nat} (a : Word W) : Int := sint a

end Sys2Proof.Machine
end

