-- ==== Sys2Proof/Machine/Ops.lean ====
section
/-! DEFINITION. The shared operations: the bit-length helpers of 00_scope.md R11, the writes of the
result registers (60_exceptions.md R151, 30_encoding.md R62), the three kinds of edge
(70_reset_and_hazards.md R171) and the ports (10_state.md R26). The block has no memory, so there is
no memory operation (20_memory.md R40). -/

namespace Sys2Proof.Machine

/-! ## Helper functions (00_scope.md R11) -/

/-- `bitlen(x)`: the smallest `L` with `x < 2^L` (R11; the law `bitlen_le_iff` says so). -/
def bitlen (x : Nat) : Nat := if x = 0 then 0 else Nat.log2 x + 1

/-- `clz_N(x) = N - bitlen(x)`: the leading zeros of x as an N-bit vector (R11). -/
def clz (n x : Nat) : Nat := n - bitlen x

/-- `floor_log2(m) = bitlen(m) - 1` for `m >= 1`, the exact integer (R11, D12). -/
def floorLog2 (m : Nat) : Nat := bitlen m - 1

/-! ## The result of a command -/

/-- What a successful command gives: a code word, or a mapped value, with the value SIZE gets. Both
are exact integers; they are stored only after a rule has checked that they fit (00_scope.md R10). -/
structure Result where
  value : Nat
  size : Nat
deriving DecidableEq, Repr

/-- The write of an accepted command: RES, SIZE and STATUS together, and RSP_VALID to 1
(20_memory.md R45, 30_encoding.md R62). -/
def State.Block.writeResult {W : Nat} (res : Word W) (size : SizeWord W) (st : Status) (s : State.Block W) : State.Block W :=
  { s with res := res, size := size, status := st.code, rspValid := true }

/-- `raise E`, the one error write: RES 0, SIZE 0, STATUS `code(E)`, RSP_VALID 1 (60_exceptions.md
R151). This is all that an error does: nothing is saved, and no control flow, mode or vector is
involved (R150). -/
def State.Block.writeError {W : Nat} (e : CmdError) (s : State.Block W) : State.Block W := s.writeResult 0 0 e.status

/-- A command ends in its result, with STATUS OK, or in the error write. -/
def State.Block.commit {W : Nat} (r : Except CmdError Result) (s : State.Block W) : State.Block W :=
  match r with
  | .ok v => s.writeResult (zextW v.value) (BitVec.ofNat (Config.sizeWidth W) v.size) .ok
  | .error e => s.writeError e

/-! ## The edges -/

/-- A reset edge: every result register takes its reset value (70_reset_and_hazards.md R170). -/
def State.Block.resetEdge {W : Nat} (s : State.Block W) : State.Block W :=
  { s with res := 0, size := 0, status := 0b00#2, rspValid := false }

/-- An idle edge: RES, SIZE and STATUS hold and RSP_VALID falls (70_reset_and_hazards.md R178). -/
def State.Block.idleEdge {W : Nat} (s : State.Block W) : State.Block W := { s with rspValid := false }

/-- The edge has sampled the ports; what stands on them next is what the host drives next, and
nothing is presented when it drives nothing more (20_memory.md R47; log entry 1). -/
def State.Block.takeEdge {W : Nat} (s : State.Block W) : State.Block W :=
  { s with ports := s.later.headD Ports.idle, later := s.later.tail }

/-! ## The ports -/

/-- The bundle that stands on the command ports (30_encoding.md R60). -/
def Ports.bundle {W : Nat} (p : Ports W) : Bundle W := Bundle.make p.cmdOp p.cmdB p.cmdA

/-- The ports with the bundle presented: `rst = 0` and `cmd_valid = 1` (30_encoding.md R60). -/
def Ports.present {W : Nat} (c : Bundle W) : Ports W :=
  { rst := false, cmdValid := true, cmdOp := c.op, cmdA := c.a, cmdB := c.b }

/-- The ports of a reset edge (70_reset_and_hazards.md R170). -/
def Ports.resetting {W : Nat} : Ports W := { Ports.idle with rst := true }

/-- `rsp_valid = RSP_VALID` (10_state.md R26). -/
def State.Block.rspValidPort {W : Nat} (s : State.Block W) : Bool := s.rspValid

/-- `rsp_res = RES` (10_state.md R26). -/
def State.Block.rspRes {W : Nat} (s : State.Block W) : Word W := s.res

/-- `rsp_size = SIZE` (10_state.md R26). -/
def State.Block.rspSize {W : Nat} (s : State.Block W) : SizeWord W := s.size

/-- `rsp_status = STATUS` (10_state.md R26). -/
def State.Block.rspStatus {W : Nat} (s : State.Block W) : StatusWord := s.status

/-- One rising edge of `clk` (70_reset_and_hazards.md R171), given what a block does with the command on
the ports when it accepts one: `rst` wins over `cmd_valid`; with neither, the edge is idle. There is no
other condition, no wait state and no busy state. -/
def edge {W : Nat} (accept : Ports W → State.Block W → Host.Outcome (State.Block W) Fault Refusal)
    (s : State.Block W) : Host.Outcome (State.Block W) Fault Refusal :=
  if s.ports.rst then .next s.takeEdge.resetEdge
  else if s.ports.cmdValid then accept s.ports s.takeEdge
  else .next s.takeEdge.idleEdge

end Sys2Proof.Machine
end

