-- ==== Sys2Proof/Machine/ExpGolomb.lean ====
section
/-! DEFINITION. EG, the Exponential-Golomb encoder (41_expgolomb.md R110 to R116), over every width
`w` (00_scope.md R7) and on exact integers (R10). -/

namespace Sys2Proof.Machine

/-- EG of `data` by an order `0 <= k < w`: the adder (R112), the leading-zero counter (R113), the
bit-width calculator with its overflow check (R114, R115), and the code (R116). `2*L` is at least
`k + 1` (R117), so the size is exact. -/
def expGolombOrder (w data k : Nat) : Except CmdError Result :=
  let value := data + 2 ^ k
  let len := bitlen value
  let size := 2 * len - k - 1
  if w < size then .error .overflow else .ok { value := value, size := size }

/-- EG (R110): the parameter check first (R111), then `k >= W` (R112). -/
def expGolomb (w data : Nat) (k : Int) : Except CmdError Result :=
  if k < 0 then .error .invalidParameter
  else if (w : Int) ≤ k then .error .overflow
  else expGolombOrder w data k.toNat

/-- EG: `data = uint(A)`, `k = sint(B)` (R110). -/
def execEg {W : Nat} (a b : Word W) (s : State.Block W) :
    Host.Outcome (State.Block W) Fault Refusal :=
  .next (s.commit (expGolomb W (dataOperand a) (paramOperand b)))

end Sys2Proof.Machine
end

