-- ==== Sys2Proof/Machine/Golomb.lean ====
section
/-! DEFINITION. GR, the Golomb-Rice encoder (40_golomb.md R80 to R87), over every width `w`
(00_scope.md R7) and on exact integers (R10). -/

namespace Sys2Proof.Machine

/-- The truncated-binary coder (R84): remainder code and its bit count, from `b`, the threshold `t`
and the remainder `r`. -/
def truncatedBinary (b t r : Nat) : Nat × Nat :=
  if r < t then (r, b) else (r + t, b + 1)

/-- The numeric pattern of the quotient prefix (R85): a single set bit above the remainder. The other
style is the losing reading of 90_conflicts.md C1 (D19) and no part of this hardware. -/
def unaryPattern (style : UnaryStyle) (q rbits : Nat) : Nat :=
  match style with
  | .zerosThenOne => 2 ^ rbits
  | .onesThenZero => (2 ^ q - 1) * 2 ^ (rbits + 1)

/-- GR of `data` by a modulus `m >= 1`: the divider (R83), the log2 unit (R82), the truncated-binary
coder (R84), the exact size with its overflow check (R86, R87), and the assembly (R86). -/
def golombPositive (w : Nat) (style : UnaryStyle) (data m : Nat) : Except CmdError Result :=
  let b := floorLog2 m
  let q := data / m
  let r := data % m
  let t := 2 ^ (b + 1) - m
  let rem := truncatedBinary b t r
  let size := (q + 1) + rem.2
  if w < size then .error .overflow
  else .ok { value := unaryPattern style q rem.2 ||| rem.1, size := size }

/-- GR (R80): the parameter check comes first (R81). -/
def golomb (w : Nat) (style : UnaryStyle) (data : Nat) (m : Int) : Except CmdError Result :=
  if m ≤ 0 then .error .invalidParameter else golombPositive w style data m.toNat

/-- GR: `data = uint(A)`, `m = sint(B)` (R80). -/
def execGr {W : Nat} (a b : Word W) (s : State.Block W) :
    Host.Outcome (State.Block W) Fault Refusal :=
  .next (s.commit (golomb W Config.grUnaryStyle (dataOperand a) (paramOperand b)))

end Sys2Proof.Machine
end

