-- ==== Sys2Proof/Machine/Reserved.lean ====
section
/-! DEFINITION. The reserved operations 0b101, 0b110 and 0b111: each raises IllegalOp whatever A and B
hold (30_encoding.md R65, 60_exceptions.md R154). -/

namespace Sys2Proof.Machine

/-- OP 0b101: IllegalOp (R65, R154). -/
def execReserved101 {W : Nat} (_a _b : Word W) (s : State.Block W) :
    Host.Outcome (State.Block W) Fault Refusal :=
  .next (s.commit (.error .illegalOp))

/-- OP 0b110: IllegalOp (R65, R154). -/
def execReserved110 {W : Nat} (_a _b : Word W) (s : State.Block W) :
    Host.Outcome (State.Block W) Fault Refusal :=
  .next (s.commit (.error .illegalOp))

/-- OP 0b111: IllegalOp (R65, R154). -/
def execReserved111 {W : Nat} (_a _b : Word W) (s : State.Block W) :
    Host.Outcome (State.Block W) Fault Refusal :=
  .next (s.commit (.error .illegalOp))

end Sys2Proof.Machine
end

