-- ==== Sys2Proof/Machine/SignMap.lean ====
section
/-! DEFINITION. The signed integer mapper: MAPN, MAPR and MAPS (42_signmap.md R130 to R133). The
mappings are those of the table's cells (90_conflicts.md C6). -/

namespace Sys2Proof.Machine

/-- The "normal" mapping on the integers: it branches on `val <= 0` (R130). -/
def mapNormal (val : Int) : Int := if val ≤ 0 then -2 * val else 2 * val - 1

/-- The "jls-regular" mapping on the integers: it branches on `val >= 0` (R131). -/
def mapRegular (val : Int) : Int := if 0 ≤ val then 2 * val else -2 * val - 1

/-- The "jls-special" mapping on the integers: it branches on `val >= 0` (R132). -/
def mapSpecial (val : Int) : Int := if 0 ≤ val then 2 * val + 1 else -2 * (val + 1)

/-- The result of a map command: the mapped value, and SIZE 0 (R133). -/
def mapped (v : Int) : Result := { value := v.toNat, size := 0 }

/-- MAPN at width `w`: Overflow where the mapped value exceeds `2^w - 1` (R130). -/
def mapnResult (w : Nat) (val : Int) : Except CmdError Result :=
  if 2 ^ w - 1 < mapNormal val then .error .overflow else .ok (mapped (mapNormal val))

/-- MAPN: `val = sint(A)`; B is ignored (R130). -/
def execMapn {W : Nat} (a _b : Word W) (s : State.Block W) :
    Host.Outcome (State.Block W) Fault Refusal :=
  .next (s.commit (mapnResult W (valOperand a)))

/-- MAPR: `val = sint(A)`; B is ignored; no error (R131). -/
def execMapr {W : Nat} (a _b : Word W) (s : State.Block W) :
    Host.Outcome (State.Block W) Fault Refusal :=
  .next (s.commit (.ok (mapped (mapRegular (valOperand a)))))

/-- MAPS: `val = sint(A)`; B is ignored; no error (R132). -/
def execMaps {W : Nat} (a _b : Word W) (s : State.Block W) :
    Host.Outcome (State.Block W) Fault Refusal :=
  .next (s.commit (.ok (mapped (mapSpecial (valOperand a)))))

end Sys2Proof.Machine
end

