-- ==== Sys2Proof/Machine/Dispatch.lean ====
section
/-! DEFINITION. One arm for each command (30_encoding.md R62). -/

namespace Sys2Proof.Machine

/-- The effect of an accepted command on the result registers (30_encoding.md R62). -/
def exec (i : Instr) (s : State) : Host.Outcome State Fault Refusal :=
  match i with
  | .gr a b => Sys2Proof.Machine.execGr a b s
  | .eg a b => Sys2Proof.Machine.execEg a b s
  | .mapn a b => Sys2Proof.Machine.execMapn a b s
  | .mapr a b => Sys2Proof.Machine.execMapr a b s
  | .maps a b => Sys2Proof.Machine.execMaps a b s
  | .reserved101 a b => Sys2Proof.Machine.execReserved101 a b s
  | .reserved110 a b => Sys2Proof.Machine.execReserved110 a b s
  | .reserved111 a b => Sys2Proof.Machine.execReserved111 a b s

end Sys2Proof.Machine
end

