-- ==== Sys2Proof/Machine/Step.lean ====
section
/-! DEFINITION. One step: one rising edge of `clk` (70_reset_and_hazards.md R171). -/

namespace Sys2Proof.Machine

/-- One rising edge of the block (70_reset_and_hazards.md R171), at the normative width. -/
def step (s : State) : Host.Outcome State Fault Refusal :=
  edge (fun p => exec (decode p.bundle)) s

/-- The state with the bundle of a table row presented on the command ports, so that the next edge
accepts exactly that command. The block fetches nothing (20_memory.md R50): a command comes from the
host on the ports, and this stands for the host presenting it (log entry 2). -/
def State.withFetchWord (s : State) (nbits w : Nat) : State :=
  { s with ports := Ports.present (BitVec.ofNat Config.CMD_W (tableNumber nbits w)) }

end Sys2Proof.Machine
end

