-- ==== Sys2Proof/Machine/Assembler.lean ====
section
/-! DEFINITION. The assembler syntax (30_encoding.md R67): from a well-formed line to the command it
spells. Not hardware: the host presents the command. -/

namespace Sys2Proof.Machine

/-- Why the assembler refuses a line. -/
inductive AsmError where
  /-- A literal fits no range of its place, or a raw OP is none of the eight (R67). -/
  | illFormedLine
deriving DecidableEq, Repr

/-- The word an operand stands for. A non-negative decimal is written as `zext_W`, which is `sext_W`
where the place is signed and the literal fits; a negative one is written as `sext_W`; `RES` stands
for the value the host read after the previous command (R67). -/
def operandWord {W : Nat} (resRead : Word W) : AsmOperand → Word W
  | .dec n => if 0 ≤ n then zextW n.toNat else sextW n
  | .hex n => zextW n
  | .res => resRead

/-- The command a line spells; map commands are written with B = 0 (R67). -/
def lineCommand (resRead : Word) : AsmLine → Instr
  | .gr a b => .gr (operandWord resRead a) (operandWord resRead b)
  | .eg a b => .eg (operandWord resRead a) (operandWord resRead b)
  | .mapn a => .mapn (operandWord resRead a) 0
  | .mapr a => .mapr (operandWord resRead a) 0
  | .maps a => .maps (operandWord resRead a) 0
  | .cmd op a b =>
    commandOf (BitVec.ofNat Config.OP_W op) (operandWord resRead a) (operandWord resRead b)

/-- The assembler: it refuses a literal that fits no range of its place (R67; log entry 7). -/
def assemble (resRead : Word) (line : AsmLine) : Except AsmError Instr :=
  if line.wf then .ok (lineCommand resRead line) else .error .illFormedLine

end Sys2Proof.Machine
end

