-- ==== Sys2Proof/Machine/Instances.lean ====
section
/-! DEFINITION. Several instances of the block (20_memory.md R51): they share no state, have no
identifier and no signal between them, so a system of them is a list of blocks. -/

namespace Sys2Proof.Machine

/-- One rising edge of the clock of instance `k`; the others have none. A position with no instance
has no edge (R51; log entry 11). -/
def instanceEdge (k : Nat) (blocks : List State) : Host.Outcome (List State) Fault Refusal :=
  match blocks[k]? with
  | none => .next blocks
  | some s =>
    match step s with
    | .next t => .next (blocks.set k t)
    | .fault r => .fault r
    | .refused r => .refused r

/-- Edges of the instances' clocks, in the order given. -/
def instanceEdges : List Nat → List State → Host.Outcome (List State) Fault Refusal
  | [], blocks => .next blocks
  | k :: ks, blocks =>
    match instanceEdge k blocks with
    | .next blocks' => instanceEdges ks blocks'
    | .fault r => .fault r
    | .refused r => .refused r

end Sys2Proof.Machine
end

