-- ==== Sys2Proof/Machine/Reader.lean ====
section
/-! DEFINITION. How a host reads what the block gives: the bit order of a code word (20_memory.md R41,
R42), the reference decoders (40_golomb.md R94, 41_expgolomb.md R120) and the inverse mappings
(42_signmap.md R134). None of it is hardware (00_scope.md R6): no step calls it, and claims about the
block's results are stated with it. -/

namespace Sys2Proof.Machine

/-- `bitstring(code, size)`: bit `i` of the stream is `code[size-1-i]`; a one bit is `true` (R42). -/
def bitstring (code size : Nat) : List Bool :=
  (List.range size).map fun i => code.testBit (size - 1 - i)

/-- The code word that a consumer reads from the output ports: `RES[SIZE-1:0]`, most significant bit
first (10_state.md R27, 20_memory.md R41). -/
def State.Block.codeWord {W : Nat} (s : State.Block W) : List Bool := bitstring (uint s.rspRes) s.rspSize.toNat

/-- The zeros up to the first one, and the stream from that one on (R94 step 1, R120). -/
def leadingZeros : List Bool → Option (Nat × List Bool)
  | [] => none
  | true :: bits => some (0, true :: bits)
  | false :: bits => (leadingZeros bits).map fun p => (p.1 + 1, p.2)

/-- The next `n` bits as a number, most significant first, after the bits already read as `acc`. -/
def readBits (acc : Nat) : Nat → List Bool → Option (Nat × List Bool)
  | 0, bits => some (acc, bits)
  | _ + 1, [] => none
  | n + 1, bit :: bits => readBits (2 * acc + bit.toNat) n bits

/-- The remainder of a GR code word: `b` bits as x; if `x < t` it is x, otherwise one more bit y and
`2x + y - t` (R94 steps 2 and 3). -/
def readRemainder (b t : Nat) (bits : List Bool) : Option (Nat × List Bool) :=
  match readBits 0 b bits with
  | none => none
  | some (x, rest) =>
    if x < t then some (x, rest)
    else
      match rest with
      | [] => none
      | y :: rest => some (2 * x + y.toNat - t, rest)

/-- The reference GR decoder for modulus m: the data, and the stream after the code word (R94). -/
def readGolomb (m : Nat) (bits : List Bool) : Option (Nat × List Bool) :=
  match leadingZeros bits with
  | none => none
  | some (q, rest) =>
    (readRemainder (floorLog2 m) (2 ^ (floorLog2 m + 1) - m) rest.tail).map
      fun p => (q * m + p.1, p.2)

/-- The reference EG decoder for order k: z zeros, then `z + 1 + k` bits as value, and the data is
`value - 2^k` (R120). -/
def readExpGolomb (k : Nat) (bits : List Bool) : Option (Nat × List Bool) :=
  match leadingZeros bits with
  | none => none
  | some (z, rest) => (readBits 0 (z + 1 + k) rest).map fun p => (p.1 - 2 ^ k, p.2)

/-- The inverse of "normal": y even gives `-y/2`, y odd gives `(y + 1)/2` (R134). -/
def unmapNormal (y : Nat) : Int := if y % 2 = 0 then -((y / 2 : Nat) : Int) else ((y + 1) / 2 : Nat)

/-- The inverse of "jls-regular": y even gives `y/2`, y odd gives `-(y + 1)/2` (R134). -/
def unmapRegular (y : Nat) : Int := if y % 2 = 0 then (y / 2 : Nat) else -(((y + 1) / 2 : Nat) : Int)

/-- The inverse of "jls-special": y odd gives `(y - 1)/2`, y even gives `-y/2 - 1` (R134). -/
def unmapSpecial (y : Nat) : Int :=
  if y % 2 = 1 then ((y - 1) / 2 : Nat) else -((y / 2 : Nat) : Int) - 1

end Sys2Proof.Machine
end

