-- ==== Sys2Proof/Machine/Sequences.lean ====
section
/-! DEFINITION. The host sequences SGR.<map> and SEG.<map> (30_encoding.md R68): what a host does with
the block, in commands of the block. -/

namespace Sys2Proof.Machine

/-- `<map>` of a sequence: N, R or S (R68). -/
inductive MapName where
  | n
  | r
  | s
deriving DecidableEq, Repr

/-- The encoder of a sequence: GR for SGR, EG for SEG (R68). -/
inductive EncoderName where
  | gr
  | eg
deriving DecidableEq, Repr

/-- `MAP<map> v`, written with B = 0 (R67, R68). -/
def mapCommand (m : MapName) (v : Word) : Instr :=
  match m with
  | .n => .mapn v 0
  | .r => .mapr v 0
  | .s => .maps v 0

/-- `GR RES, m` or `EG RES, k`, with the value of RES that the host read (R68). -/
def encodeCommand (e : EncoderName) (resRead param : Word) : Instr :=
  match e with
  | .gr => .gr resRead param
  | .eg => .eg resRead param

/-- The mapping that `<map>` names, on the integers (42_signmap.md R130, R131, R132). -/
def mapValue (m : MapName) (val : Int) : Int :=
  match m with
  | .n => mapNormal val
  | .r => mapRegular val
  | .s => mapSpecial val

/-- Its inverse (42_signmap.md R134). -/
def unmapValue (m : MapName) (y : Nat) : Int :=
  match m with
  | .n => unmapNormal y
  | .r => unmapRegular y
  | .s => unmapSpecial y

/-- The reference decoder of the encoder (40_golomb.md R94, 41_expgolomb.md R120). -/
def readCode (e : EncoderName) (param : Nat) (bits : List Bool) : Option (Nat × List Bool) :=
  match e with
  | .gr => readGolomb param bits
  | .eg => readExpGolomb param bits

/-- The host presents a command at the next edge, before whatever else it was to drive. -/
def State.Block.offer (i : Instr) (s : State) : State :=
  { s with ports := Ports.present (encode i), later := s.ports :: s.later }

/-- The edge that accepts a command the host presents. -/
def issue (i : Instr) (s : State) : Host.Outcome State Fault Refusal := step (s.offer i)

/-- `SGR.<map> v, m` and `SEG.<map> v, k`: the map command; then, only if STATUS was OK, the encode
of the RES the host read. Otherwise no encode is issued and the result is the map command's (R68).
The two commands are accepted at consecutive edges, the earliest R176 allows (log entry 12). -/
def signedSequence (e : EncoderName) (m : MapName) (v param : Word) (s : State) :
    Host.Outcome State Fault Refusal :=
  match issue (mapCommand m v) s with
  | .next t =>
    if t.rspStatus = Status.ok.code then issue (encodeCommand e t.rspRes param) t else .next t
  | .fault r => .fault r
  | .refused r => .refused r

end Sys2Proof.Machine
end

