-- ==== Sys2Proof/Machine/Width.lean ====
section
/-! DEFINITION. The block at every width: "A model takes `W` as a parameter" (00_scope.md R7). The
words, the bundle, the state, the operations and the meanings all take `W`; here stand the command and
the edge that they make. The machine of Dispatch.lean and Step.lean is this block at `W = Config.W`
(the law `step_eq_stepAt`; log entry 4). -/

namespace Sys2Proof.Machine

/-- An accepted command of a block of width W, by the OP map (30_encoding.md R61, R62): the meanings
are those that `exec` calls. The eight values are all there are, so the last row stands for 0b111
alone. -/
def performAt {W : Nat} (op : OpWord) (a b : Word W) (s : State.Block W) :
    Host.Outcome (State.Block W) Fault Refusal :=
  if op = 0b000#3 then execGr a b s
  else if op = 0b001#3 then execEg a b s
  else if op = 0b010#3 then execMapn a b s
  else if op = 0b011#3 then execMapr a b s
  else if op = 0b100#3 then execMaps a b s
  else if op = 0b101#3 then execReserved101 a b s
  else if op = 0b110#3 then execReserved110 a b s
  else execReserved111 a b s

/-- One rising edge of a block of width W: an accepted command is
`execute(cmd_op, cmd_a, cmd_b)` (70_reset_and_hazards.md R171). -/
def stepAt {W : Nat} (s : State.Block W) : Host.Outcome (State.Block W) Fault Refusal :=
  edge (fun p => performAt p.cmdOp p.cmdA p.cmdB) s

end Sys2Proof.Machine
end

