-- ==== Sys2Proof/Safety.lean ====
section
/-! DEFINITION. What counts as a good state of the block, in the terms that claims use. -/

namespace Sys2Proof.Machine

/-- RES, SIZE and STATUS are those of the other state. -/
def State.Block.SameResult {W : Nat} (s t : State.Block W) : Prop :=
  s.res = t.res ∧ s.size = t.size ∧ s.status = t.status

/-- What the result registers always satisfy once the block has been reset: SIZE is 0 to W
(10_state.md R23); an error shows RES 0 and SIZE 0 (60_exceptions.md R151); and a nonzero SIZE is
that of a code word, which has a one bit and no bit at position SIZE or above (10_state.md R28). -/
def State.Block.Inv {W : Nat} (s : State.Block W) : Prop :=
  s.size.toNat ≤ W ∧
  (s.status ≠ Status.ok.code → s.res = 0 ∧ s.size = 0) ∧
  (s.size ≠ 0 → 0 < uint s.res ∧ uint s.res < 2 ^ s.size.toNat)

/-- The registers show the result of this command: what `exec` writes for it, from any state. -/
def State.Block.Shows (s : State) (i : Instr) : Prop :=
  ∃ before after, exec i before = .next after ∧ s.SameResult after

/-- RES, SIZE and STATUS hold their reset values or the result of some command, and RSP_VALID = 1
says that it is a command's (10_state.md R25, 20_memory.md R48, 70_reset_and_hazards.md R172). -/
def State.Block.Explained (s : State) : Prop :=
  (s.SameResult State.reset ∨ ∃ i, s.Shows i) ∧ (s.rspValid = true → ∃ i, s.Shows i)

end Sys2Proof.Machine
end

