-- ==== Sys2Proof/Certificates/Slice0/Obligations.lean ====
section
/-! DEFINITION. The statements about the cppls CORE block, from the numbered rules of spec/. -/

open Sys2Proof Sys2Proof.Machine

/-! ## Encoding -/

/-- Words of 95_test_vectors.md sections 1 and 2.4 and of its program P3, one for each OP. That a number
with a bit above the bundle is rejected is the model's own choice (log entry 6, DESIGN CHOICE). -/
def Obligations.CommandWordsOfTheSpecDecode : Prop :=
  decodeTableWord 136 0x000000000000000030000000000000005 = some (.gr 5 3) ∧
  decodeTableWord 136 0x1FFFFFFFFFFFFFFFF0000000000000005 = some (.eg 5 0xFFFFFFFFFFFFFFFF) ∧
  decodeTableWord 136 0x2123456789ABCDEF0FFFFFFFFFFFFFFFE
    = some (.mapn 0xFFFFFFFFFFFFFFFE 0x123456789ABCDEF0) ∧
  decodeTableWord 136 0x3FFFFFFFFFFFFFFFF0000000000000002 = some (.mapr 2 0xFFFFFFFFFFFFFFFF) ∧
  decodeTableWord 136 0x48000000000000000FFFFFFFFFFFFFFFE
    = some (.maps 0xFFFFFFFFFFFFFFFE 0x8000000000000000) ∧
  decodeTableWord 136 0x50000000000000001FFFFFFFFFFFFFFFF
    = some (.reserved101 0xFFFFFFFFFFFFFFFF 1) ∧
  decodeTableWord 136 0x6FFFFFFFFFFFFFFFFFFFFFFFFFFFFFFFF
    = some (.reserved110 0xFFFFFFFFFFFFFFFF 0xFFFFFFFFFFFFFFFF) ∧
  decodeTableWord 136 0x700000000000000030000000000000005 = some (.reserved111 5 3) ∧
  decodeTableWord 136 (2 ^ 131) = none

/-- The OP map of 30_encoding.md R61, in arithmetic on the bundle read as one number: OP above 2^128,
B from 2^64, A below (R60). -/
def Obligations.OpMapSelectsTheCommand : Prop :=
  ∀ (op : Fin 8) (a b : Word) (c : Bundle),
    c.toNat = op.val * 2 ^ 128 + b.toNat * 2 ^ 64 + a.toNat →
    decode c =
      match op with
      | 0 => .gr a b
      | 1 => .eg a b
      | 2 => .mapn a b
      | 3 => .mapr a b
      | 4 => .maps a b
      | 5 => .reserved101 a b
      | 6 => .reserved110 a b
      | 7 => .reserved111 a b

/-- Every command, with every A and B, comes back from its bundle (30_encoding.md R60, R61, R65). -/
def Obligations.DecodeOfEncodeIsTheCommand : Prop :=
  ∀ i : Instr, i.wf = true → decode (encode i) = i

/-- Every bundle is the encoding of the one command it decodes to (30_encoding.md R62, R65, R66). -/
def Obligations.EncodeOfDecodeIsTheBundle : Prop :=
  ∀ c : Bundle, (decode c).wf = true ∧ encode (decode c) = c ∧ ∀ i, encode i = c → i = decode c

/-- Every bundle matches exactly one row of spec/opcode_table.json, that of the command it decodes to
(30_encoding.md R61, R65: the case is exhaustive and nothing overlaps). -/
def Obligations.EveryBundleMatchesOneTableRow : Prop :=
  ∀ c : Bundle, ∃ row ∈ opcodeTable, row.matches c = true ∧ row.mnemonic = (decode c).mnemonic ∧
    ∀ other ∈ opcodeTable, other.matches c = true → other = row

/-! ## The edges -/

/-- A step at an accepting edge runs the command that the ports spell, on the state whose ports have
moved on to what the host drives next. What stands there when the host drives nothing more is the
model's choice (log entry 1). -/
def Obligations.StepRunsThePresentedCommand : Prop :=
  ∀ (s : State) (i : Instr), s.ports.rst = false → s.ports.cmdValid = true → i.wf = true →
    decode (Bundle.make s.ports.cmdOp s.ports.cmdB s.ports.cmdA) = i →
    (∀ p ps, s.later = p :: ps → step s = exec i { s with ports := p, later := ps }) ∧
    (s.later = [] → step s = exec i { s with ports := Ports.idle })

/-- The cycle rule, 70_reset_and_hazards.md R171: the three kinds of edge, and no other condition. -/
def Obligations.EveryEdgeFollowsTheCycleRule : Prop :=
  ∀ s : State, ∃ t, step s = .next t ∧
    (s.ports.rst = true →
      t.res = 0#64 ∧ t.size = 0#_ ∧ t.status = 0b00#2 ∧ t.rspValid = false) ∧
    (s.ports.rst = false → s.ports.cmdValid = true →
      t.rspValid = true ∧
      ∃ u, exec (decode (Bundle.make s.ports.cmdOp s.ports.cmdB s.ports.cmdA)) s = .next u ∧
        t.SameResult u) ∧
    (s.ports.rst = false → s.ports.cmdValid = false → t.SameResult s ∧ t.rspValid = false)

/-- 70_reset_and_hazards.md R170: a reset edge gives every register its reset value, from any state,
that of power-on (R173) among them, and whatever command is offered with it. -/
def Obligations.ResetEdgeClearsTheRegisters : Prop :=
  ∀ (s : State) (valid : Bool) (op : OpWord) (a b : Word),
    s.ports = { rst := true, cmdValid := valid, cmdOp := op, cmdA := a, cmdB := b } →
    ∃ t, step s = .next t ∧ t.res = 0#64 ∧ t.size = 0#_ ∧ t.status = 0b00#2 ∧ t.rspValid = false ∧
      ∀ valid' op' a' b',
        step { s with ports := { rst := true, cmdValid := valid', cmdOp := op', cmdA := a', cmdB := b' } }
          = .next t

/-- 70_reset_and_hazards.md R178: an idle edge holds RES, SIZE and STATUS, clears RSP_VALID, and
ignores what stands on the command fields. -/
def Obligations.IdleEdgeHoldsTheResult : Prop :=
  ∀ s : State, s.ports.rst = false → s.ports.cmdValid = false →
    ∃ t, step s = .next t ∧ t.SameResult s ∧ t.rspValid = false ∧
      ∀ op a b,
        step { s with ports := { s.ports with cmdOp := op, cmdA := a, cmdB := b } } = .next t

/-- Whatever an edge does to the registers, the ports move on to the levels the host drives next, in
order, and to idle when it drives nothing more: the model's choice of how the host's inputs are held
(log entry 1). -/
def Obligations.EveryEdgeTakesTheNextLevels : Prop :=
  ∀ s t : State, step s = .next t →
    (∀ p ps, s.later = p :: ps → t.ports = p ∧ t.later = ps) ∧
    (s.later = [] → t.ports = Ports.idle ∧ t.later = [])

/-- 10_state.md R25: RSP_VALID is 1 exactly after an edge that accepts a command; its reset value is
0. -/
def Obligations.RspValidMarksAcceptingEdges : Prop :=
  State.reset.rspValid = false ∧ ∀ s t : State, step s = .next t →
    (t.rspValid = true ↔ s.ports.rst = false ∧ s.ports.cmdValid = true)

/-- No state stops the block: 60_exceptions.md R150 (errors are results, not traps) and
70_reset_and_hazards.md R171 (no wait state and no busy state), for every run of edges. -/
def Obligations.EveryRunCompletes : Prop :=
  ∀ (n : Nat) (s : State), ∃ t, Sys2Proof.core.run n s = .next t

/-- The frame of every command (10_state.md R20: it reads and writes no other state): it completes,
sets RSP_VALID, and leaves the ports and what the host will drive alone. All four registers are its
destinations. -/
def Obligations.CommandsCompleteAndKeepThePorts : Prop :=
  ∀ (i : Instr) (s : State), ∃ t, exec i s = .next t ∧
    t.rspValid = true ∧ t.ports = s.ports ∧ t.later = s.later

/-- 10_state.md R31: two accepted commands with equal OP, A and B write equal RES, SIZE and STATUS,
whatever the blocks held before. -/
def Obligations.EqualCommandsWriteEqualResults : Prop :=
  ∀ s s' t t' : State, s.ports.rst = false → s'.ports.rst = false →
    s.ports.cmdValid = true → s'.ports.cmdValid = true →
    s.ports.cmdOp = s'.ports.cmdOp → s.ports.cmdA = s'.ports.cmdA → s.ports.cmdB = s'.ports.cmdB →
    step s = .next t → step s' = .next t' → t.SameResult t' ∧ t.rspValid = t'.rspValid

/-- 70_reset_and_hazards.md R175: a command's result stays on the outputs while nothing is accepted
and nothing resets, and RSP_VALID marks its first cycle alone. -/
def Obligations.ResultIsHeldUntilTheNextCommand : Prop :=
  ∀ (s : State) (i : Instr) (k : Nat), s.ports = Ports.present (encode i) → k ≤ s.later.length →
    (∀ p ∈ s.later.take k, p.rst = false ∧ p.cmdValid = false) →
    ∃ t u, Sys2Proof.core.run (k + 1) s = .next t ∧ exec i s = .next u ∧ t.SameResult u ∧
      (t.rspValid = true ↔ k = 0)

/-- 20_memory.md R48: commands presented back to back take effect in the order of their edges, and
after each edge the registers show that edge's command alone. -/
def Obligations.BackToBackCommandsTakeEffectInOrder : Prop :=
  ∀ (before : List Instr) (i : Instr) (rest : List Ports) (s : State),
    s.ports :: s.later = (before ++ [i]).map (fun j => Ports.present (encode j)) ++ rest →
    ∃ t u, Sys2Proof.core.run (before.length + 1) s = .next t ∧ exec i s = .next u ∧
      t.SameResult u ∧ t.rspValid = true

/-! ## Invariants -/

/-- The invariants hold at reset, where the registers hold what 10_state.md R22 to R25 give. -/
def Obligations.ResetStateIsGood : Prop :=
  State.reset.res = 0#64 ∧ State.reset.size = 0#_ ∧ State.reset.status = 0b00#2 ∧
  State.reset.rspValid = false ∧ State.reset.Inv ∧ State.reset.Explained

/-- From any state one reset edge establishes both invariants; from power-on, whatever the registers
held, it leaves the registers of State.reset (70_reset_and_hazards.md R170, R173). -/
def Obligations.ResetEdgeEstablishesTheInvariants : Prop :=
  (∀ s t : State, s.ports.rst = true → step s = .next t → t.Inv ∧ t.Explained) ∧
  ∀ (draw : Nat) (p : Ports) (later : List Ports), p.rst = true →
    ∃ t, step (State.powerOn draw p later) = .next t ∧ t.SameResult State.reset ∧
      t.rspValid = State.reset.rspValid

/-- SIZE stays in 0 to W, an error shows RES 0 and SIZE 0, and a nonzero SIZE is that of a code word
(10_state.md R23, R28; 60_exceptions.md R151): every edge keeps it. -/
def Obligations.EveryStepKeepsTheRegisterInvariant : Prop :=
  ∀ s t : State, s.Inv → step s = .next t → t.Inv

/-- The registers hold their reset values or a command's result, and RSP_VALID = 1 says that it is a
command's (10_state.md R25, 20_memory.md R48, 70_reset_and_hazards.md R172): every edge keeps it. -/
def Obligations.EveryStepKeepsTheRegistersExplained : Prop :=
  ∀ s t : State, s.Explained → step s = .next t → t.Explained

/-! ## Errors -/

/-- 30_encoding.md R65 and 60_exceptions.md R154: a reserved OP gives the IllegalOp result whatever A
and B hold. -/
def Obligations.ReservedOpsGiveIllegalOp : Prop :=
  ∀ (a b : Word) (s : State) (i : Instr),
    i = .reserved101 a b ∨ i = .reserved110 a b ∨ i = .reserved111 a b →
    exec i s = .next { s with res := 0#64, size := 0#_, status := 0b11#2, rspValid := true }

/-- The cause table of 60_exceptions.md R155, with the error write of R151 and the priority of R156:
each status with exactly its causes, for every command. -/
def Obligations.StatusFollowsTheCauseTable : Prop :=
  ∀ (i : Instr) (s : State), ∃ t, exec i s = .next t ∧ t.rspValid = true ∧
    (t.status ≠ 0b00#2 → t.res = 0#64 ∧ t.size = 0#_) ∧
    (t.status = 0b11#2 ↔
      ∃ a b, i = .reserved101 a b ∨ i = .reserved110 a b ∨ i = .reserved111 a b) ∧
    (t.status = 0b01#2 ↔
      ∃ a b : Word, (i = .gr a b ∧ b.toInt ≤ 0) ∨ (i = .eg a b ∧ b.toInt < 0)) ∧
    (t.status = 0b10#2 ↔
      (∃ (a b : Word) (m : Nat), i = .gr a b ∧ b.toInt = m ∧ 0 < m ∧
        64 < a.toNat / m + 1 +
          if a.toNat % m < 2 ^ (Nat.log2 m + 1) - m then Nat.log2 m else Nat.log2 m + 1) ∨
      (∃ (a b : Word) (k : Nat), i = .eg a b ∧ b.toInt = k ∧
        (64 ≤ k ∨ 64 < 2 * (Nat.log2 (a.toNat + 2 ^ k) + 1) - k - 1)) ∨
      (∃ a b : Word, i = .mapn a b ∧ a.toInt = -2 ^ 63))

/-- 10_state.md R28 and R29: a successful GR or EG gives a SIZE of at least 1 and no bit of RES at
position SIZE or above; SIZE is 0 after a map command, an error and reset, and after nothing else. -/
def Obligations.SizeZeroIsNoCodeWord : Prop :=
  State.reset.size = 0#_ ∧
  ∀ (i : Instr) (s t : State), exec i s = .next t →
    (t.size = 0#_ ↔
      t.status ≠ 0b00#2 ∨ ∃ a b, i = .mapn a b ∨ i = .mapr a b ∨ i = .maps a b) ∧
    ((∃ a b, i = .gr a b ∨ i = .eg a b) → t.status = 0b00#2 →
      1 ≤ t.size.toNat ∧ t.res.toNat < 2 ^ t.size.toNat ∧
      ∀ j, t.size.toNat ≤ j → t.res.getLsbD j = false)

/-! ## The code word and the helper functions -/

/-- 00_scope.md R11: `bitlen(x)` is the smallest L with `x < 2^L`; `clz` and `floor_log2` follow. -/
def Obligations.BitLengthIsTheSmallestFit : Prop :=
  (∀ x len : Nat, x < 2 ^ len ↔ bitlen x ≤ len) ∧
  (∀ n x : Nat, x < 2 ^ n → clz n x + bitlen x = n ∧ ∀ j, j < clz n x → x.testBit (n - 1 - j) = false) ∧
  (∀ m : Nat, 1 ≤ m → 2 ^ floorLog2 m ≤ m ∧ m < 2 ^ (floorLog2 m + 1)) ∧
  (∀ w m : Nat, 1 ≤ m → m < 2 ^ w → floorLog2 m = w - 1 - clz w m)

/-- 20_memory.md R41 and R42: the stream has SIZE bits, bit i is RES[SIZE-1-i], no bit at position
SIZE or above is read, and a code word is read back from its stream. -/
def Obligations.CodeWordIsReadMsbFirst : Prop :=
  (∀ s : State, s.codeWord.length = s.size.toNat ∧
    ∀ i, i < s.size.toNat → s.codeWord[i]? = some (s.res.getLsbD (s.size.toNat - 1 - i))) ∧
  (∀ code size : Nat, bitstring code size = bitstring (code % 2 ^ size) size) ∧
  (∀ s t : State, s.res.toNat < 2 ^ s.size.toNat → t.res.toNat < 2 ^ t.size.toNat →
    s.codeWord = t.codeWord → s.res = t.res ∧ s.size = t.size)

/-- At every width w (00_scope.md R7) an exact result fits the registers: GR and EG give a code word
with a one bit and nothing above its size (40_golomb.md R92, 41_expgolomb.md R117, R118), and a map
command gives size 0 and a value below `2^w`, for MAPR and MAPS with every w-bit value (42_signmap.md
R130, R131, R132, R138). How the width is a parameter of the model is log entry 4. -/
def Obligations.ResultsFitEveryWidth : Prop :=
  ∀ (w data : Nat) (p val : Int) (r : Result),
    (golomb w .zerosThenOne data p = .ok r ∨ expGolomb w data p = .ok r →
      1 ≤ r.size ∧ r.size ≤ w ∧ 0 < r.value ∧ r.value < 2 ^ r.size) ∧
    (mapnResult w val = .ok r → r.size = 0 ∧ r.value < 2 ^ w) ∧
    (1 ≤ w → -2 ^ (w - 1) ≤ val → val < 2 ^ (w - 1) →
      (0 ≤ mapRegular val ∧ mapRegular val ≤ 2 ^ w - 1 ∧
        (mapped (mapRegular val)).size = 0 ∧ (mapped (mapRegular val)).value < 2 ^ w) ∧
      (0 ≤ mapSpecial val ∧ mapSpecial val ≤ 2 ^ w - 1 ∧
        (mapped (mapSpecial val)).size = 0 ∧ (mapped (mapSpecial val)).value < 2 ^ w))

/-! ## The width -/

/-- The parameters of 00_scope.md R7 at their normative values, SIZE_W and the bundle as functions of W
(30_encoding.md R60); and the machine, its commands, its edge and its reset state are the block of
every width taken at that W (log entry 4). -/
def Obligations.MachineIsTheBlockAtTheNormativeWidth : Prop :=
  (Config.W = 64 ∧ Config.SIZE_W = 7 ∧ Config.OP_W = 3 ∧ Config.STATUS_W = 2 ∧ Config.CMD_W = 131 ∧
    Config.grUnaryStyle = .zerosThenOne) ∧
  (∀ W : Nat, Config.sizeWidth W = bitlen W ∧ Config.cmdWidth W = Config.OP_W + 2 * W ∧
    W < 2 ^ Config.sizeWidth W) ∧
  (∀ (W : Nat) (op : OpWord) (b a : Word W) (c : Bundle W),
    ((Bundle.make op b a).op = op ∧ (Bundle.make op b a).b = b ∧ (Bundle.make op b a).a = a) ∧
    Bundle.make c.op c.b c.a = c) ∧
  (∀ (i : Instr) (s : State), exec i s = performAt i.opWord i.a i.b s) ∧
  (∀ s : State, step s = stepAt s) ∧
  State.reset = State.resetAt Config.W

/-- The invariant of `EveryStepKeepsTheRegisterInvariant` at every width: it holds at reset and every
edge keeps it (00_scope.md R7; 10_state.md R23, R28; 60_exceptions.md R151). -/
def Obligations.EveryWidthKeepsTheRegisterInvariant : Prop :=
  ∀ W : Nat, (State.resetAt W).Inv ∧ ∀ s t : State.Block W, s.Inv → stepAt s = .next t → t.Inv

/-- At every width the commands write their exact results, which fit the registers, or the error
write, and nothing else (00_scope.md R7, R10; 40_golomb.md R80; 41_expgolomb.md R110; 42_signmap.md
R130 to R132; 60_exceptions.md R151). The parts are given by what they are, as in the statements at
the normative width. -/
def Obligations.EveryWidthWritesExactResults : Prop :=
  ∀ (W : Nat) (a b : Word W) (s : State.Block W), 1 ≤ W →
    (∀ m e q r rbits rcode : Nat, b.toInt = m → 2 ^ e ≤ m → m < 2 ^ (e + 1) →
      a.toNat = q * m + r → r < m → rbits = (if r < 2 ^ (e + 1) - m then e else e + 1) →
      rcode = (if r < 2 ^ (e + 1) - m then r else r + (2 ^ (e + 1) - m)) →
      (q + 1 + rbits ≤ W →
        2 ^ rbits + rcode < 2 ^ W ∧ q + 1 + rbits < 2 ^ Config.sizeWidth W ∧
        performAt 0b000#3 a b s = .next { s with
          res := BitVec.ofNat W (2 ^ rbits + rcode)
          size := BitVec.ofNat (Config.sizeWidth W) (q + 1 + rbits)
          status := 0b00#2, rspValid := true }) ∧
      (W < q + 1 + rbits → performAt 0b000#3 a b s
        = .next { s with res := 0#W, size := 0#_, status := 0b10#2, rspValid := true })) ∧
    (∀ k len size : Nat, b.toInt = k → 2 ^ len ≤ a.toNat + 2 ^ k → a.toNat + 2 ^ k < 2 ^ (len + 1) →
      size + k + 1 = 2 * (len + 1) →
      (size ≤ W →
        a.toNat + 2 ^ k < 2 ^ W ∧ size < 2 ^ Config.sizeWidth W ∧
        performAt 0b001#3 a b s = .next { s with
          res := BitVec.ofNat W (a.toNat + 2 ^ k), size := BitVec.ofNat (Config.sizeWidth W) size
          status := 0b00#2, rspValid := true }) ∧
      (W < size → performAt 0b001#3 a b s
        = .next { s with res := 0#W, size := 0#_, status := 0b10#2, rspValid := true })) ∧
    (∀ op : OpWord, op = 0b101#3 ∨ op = 0b110#3 ∨ op = 0b111#3 → performAt op a b s
        = .next { s with res := 0#W, size := 0#_, status := 0b11#2, rspValid := true }) ∧
    ((b.toInt ≤ 0 → performAt 0b000#3 a b s
        = .next { s with res := 0#W, size := 0#_, status := 0b01#2, rspValid := true }) ∧
      (b.toInt < 0 → performAt 0b001#3 a b s
        = .next { s with res := 0#W, size := 0#_, status := 0b01#2, rspValid := true })) ∧
    (∀ n : Nat, (a.toInt ≤ 0 → (n : Int) = -2 * a.toInt) → (0 < a.toInt → (n : Int) = 2 * a.toInt - 1) →
      (a.toInt ≠ -2 ^ (W - 1) → n < 2 ^ W ∧ performAt 0b010#3 a b s = .next { s with
        res := BitVec.ofNat W n, size := 0#_, status := 0b00#2, rspValid := true }) ∧
      (a.toInt = -2 ^ (W - 1) → performAt 0b010#3 a b s
        = .next { s with res := 0#W, size := 0#_, status := 0b10#2, rspValid := true })) ∧
    (∀ n : Nat, (0 ≤ a.toInt → (n : Int) = 2 * a.toInt) → (a.toInt < 0 → (n : Int) = -2 * a.toInt - 1) →
      n < 2 ^ W ∧ performAt 0b011#3 a b s = .next { s with
        res := BitVec.ofNat W n, size := 0#_, status := 0b00#2, rspValid := true }) ∧
    (∀ n : Nat, (0 ≤ a.toInt → (n : Int) = 2 * a.toInt + 1) →
      (a.toInt < 0 → (n : Int) = -2 * (a.toInt + 1)) →
      n < 2 ^ W ∧ performAt 0b100#3 a b s = .next { s with
        res := BitVec.ofNat W n, size := 0#_, status := 0b00#2, rspValid := true })

/-! ## GR -/

/-- 40_golomb.md R84: the truncated-binary coder and the widths of its parts, where b is the exact
log2 of m. -/
def Obligations.TruncatedBinaryFitsItsBits : Prop :=
  ∀ m b r t rcode rbits : Nat, 2 ^ b ≤ m → m < 2 ^ (b + 1) → r < m → t = 2 ^ (b + 1) - m →
    truncatedBinary b t r = (rcode, rbits) →
    1 ≤ t ∧ t ≤ 2 ^ b ∧
    (r < t → rcode = r ∧ rbits = b ∧ rcode < 2 ^ b) ∧
    (t ≤ r → rcode = r + t ∧ rbits = b + 1 ∧ 2 * t ≤ rcode ∧ rcode ≤ 2 ^ (b + 1) - 1)

/-- 40_golomb.md R88: the internal widths of GR, at every width. -/
def Obligations.GolombNeedsOneBitMoreThanTheWidth : Prop :=
  ∀ w data m rcode rbits : Nat, data < 2 ^ w → 1 ≤ m → m < 2 ^ (w - 1) →
    truncatedBinary (floorLog2 m) (2 ^ (floorLog2 m + 1) - m) (data % m) = (rcode, rbits) →
    2 ^ (floorLog2 m + 1) ≤ 2 ^ (w - 1) ∧ 2 ^ (floorLog2 m + 1) - m < 2 ^ (w - 1) ∧
    rcode < 2 ^ (w - 1) ∧ data / m < 2 ^ w ∧ data / m + 1 + rbits < 2 ^ (w + 1)

/-- A GR that completes with a code word, 40_golomb.md R86: RES is `2^rbits OR rcode`, SIZE the exact
size and STATUS OK. b, q, r are given by what they are: `2^b <= m < 2^(b+1)` (R82), `data = q*m + r`
with `r < m` (R83); t is `2^(b+1) - m` and the two clauses are the two branches of R84. -/
def Obligations.GolombWritesPrefixAndRemainder : Prop :=
  ∀ (a b : Word) (s : State) (m e q r : Nat), b.toInt = m → 2 ^ e ≤ m → m < 2 ^ (e + 1) →
    a.toNat = q * m + r → r < m →
    (r < 2 ^ (e + 1) - m → q + 1 + e ≤ 64 →
      2 ^ e ||| r = 2 ^ e + r ∧
      exec (.gr a b) s = .next { s with
        res := BitVec.ofNat 64 (2 ^ e + r), size := BitVec.ofNat Config.SIZE_W (q + 1 + e)
        status := 0b00#2, rspValid := true }) ∧
    (2 ^ (e + 1) - m ≤ r → q + 1 + (e + 1) ≤ 64 →
      2 ^ (e + 1) ||| (r + (2 ^ (e + 1) - m)) = 2 ^ (e + 1) + (r + (2 ^ (e + 1) - m)) ∧
      exec (.gr a b) s = .next { s with
        res := BitVec.ofNat 64 (2 ^ (e + 1) + (r + (2 ^ (e + 1) - m)))
        size := BitVec.ofNat Config.SIZE_W (q + 1 + (e + 1))
        status := 0b00#2, rspValid := true })

/-- 40_golomb.md R87: GR overflows exactly when the exact size exceeds W, which the hardware tests
without wrap-around; otherwise the code fits RES. -/
def Obligations.GolombOverflowsPastTheWidth : Prop :=
  ∀ (a b : Word) (s : State) (m e q r rbits : Nat), b.toInt = m → 2 ^ e ≤ m → m < 2 ^ (e + 1) →
    a.toNat = q * m + r → r < m → rbits = (if r < 2 ^ (e + 1) - m then e else e + 1) →
    rbits ≤ 63 ∧ (64 < q + 1 + rbits ↔ 63 - rbits < q) ∧
    (64 < q + 1 + rbits →
      exec (.gr a b) s = .next { s with res := 0#64, size := 0#_, status := 0b10#2, rspValid := true }) ∧
    (q + 1 + rbits ≤ 64 → ∃ t, exec (.gr a b) s = .next t ∧ t.status = 0b00#2 ∧
      t.res.toNat < 2 ^ (q + 1 + rbits) ∧ 2 ^ (q + 1 + rbits) ≤ 2 ^ 64)

/-- 40_golomb.md R81: `m <= 0` is InvalidParameter, whatever the data, and nothing else of GR is. -/
def Obligations.GolombRejectsNonPositiveModulus : Prop :=
  ∀ (a b : Word) (s : State),
    (b.toInt ≤ 0 → exec (.gr a b) s
      = .next { s with res := 0#64, size := 0#_, status := 0b01#2, rspValid := true }) ∧
    (0 < b.toInt → ∃ t, exec (.gr a b) s = .next t ∧ t.status ≠ 0b01#2)

/-- 40_golomb.md R90: for a modulus that is a power of two the code is the Rice code. -/
def Obligations.GolombByPowerOfTwoIsRice : Prop :=
  ∀ (a b : Word) (s : State) (e : Nat), b.toInt = 2 ^ e → a.toNat / 2 ^ e + 1 + e ≤ 64 →
    exec (.gr a b) s = .next { s with
      res := BitVec.ofNat 64 (2 ^ e + a.toNat % 2 ^ e)
      size := BitVec.ofNat Config.SIZE_W (a.toNat / 2 ^ e + 1 + e)
      status := 0b00#2, rspValid := true }

/-- 40_golomb.md R91: with m = 1 the code is pure unary, and it fits exactly for data below W. -/
def Obligations.GolombByOneIsUnary : Prop :=
  ∀ (a b : Word) (s : State), b.toInt = 1 →
    (a.toNat ≤ 63 → exec (.gr a b) s = .next { s with
      res := 1#64, size := BitVec.ofNat Config.SIZE_W (a.toNat + 1), status := 0b00#2, rspValid := true }) ∧
    (64 ≤ a.toNat → exec (.gr a b) s
      = .next { s with res := 0#64, size := 0#_, status := 0b10#2, rspValid := true })

/-- 40_golomb.md R92: the three facts of every successful GR. -/
def Obligations.GolombCodeHasItsTopBitAtTheRemainderWidth : Prop :=
  ∀ (a b : Word) (s t : State) (m e q r rbits : Nat), b.toInt = m → 2 ^ e ≤ m → m < 2 ^ (e + 1) →
    a.toNat = q * m + r → r < m → rbits = (if r < 2 ^ (e + 1) - m then e else e + 1) →
    exec (.gr a b) s = .next t → t.status = 0b00#2 →
    1 ≤ t.size.toNat ∧ t.size.toNat ≤ 64 ∧
    2 ^ rbits ≤ t.res.toNat ∧ t.res.toNat < 2 ^ (rbits + 1) ∧ 2 ^ (rbits + 1) ≤ 2 ^ t.size.toNat ∧
    t.res.getLsbD rbits = true ∧ (∀ j, rbits < j → t.res.getLsbD j = false)

/-- 40_golomb.md R89: the stream form of a GR code word: q zeros, a one, and the remainder code in
rbits bits. -/
def Obligations.GolombStreamIsUnaryThenRemainder : Prop :=
  ∀ (a b : Word) (s t : State) (m e q r : Nat), b.toInt = m → 2 ^ e ≤ m → m < 2 ^ (e + 1) →
    a.toNat = q * m + r → r < m → exec (.gr a b) s = .next t → t.status = 0b00#2 →
    (r < 2 ^ (e + 1) - m →
      t.codeWord = List.replicate q false ++ true :: bitstring r e ∧
      t.codeWord.length = q + 1 + e) ∧
    (2 ^ (e + 1) - m ≤ r →
      t.codeWord = List.replicate q false ++ true :: bitstring (r + (2 ^ (e + 1) - m)) (e + 1) ∧
      t.codeWord.length = q + 1 + (e + 1))

/-- 40_golomb.md R93: for one m, SIZE does not decrease as the data grows over the inputs that
succeed, by at most one within a quotient; from the last remainder of a quotient to the next quotient
it grows by one if m is a power of two and is equal if it is not; past the limit it is Overflow with
SIZE 0. -/
def Obligations.GolombSizeIsMonotone : Prop :=
  ∀ (a a' b : Word) (s s' t t' : State) (m : Nat), b.toInt = m → 0 < m → a.toNat ≤ a'.toNat →
    exec (.gr a b) s = .next t → exec (.gr a' b) s' = .next t' →
    (t.status = 0b10#2 → t'.status = 0b10#2 ∧ t'.size = 0#_) ∧
    (t.status = 0b00#2 → t'.status = 0b00#2 →
      t.size.toNat ≤ t'.size.toNat ∧
      (a.toNat / m = a'.toNat / m → t'.size.toNat ≤ t.size.toNat + 1) ∧
      (a.toNat % m = m - 1 → a'.toNat = a.toNat + 1 →
        ((∃ e, m = 2 ^ e) → t'.size.toNat = t.size.toNat + 1) ∧
        ((¬ ∃ e, m = 2 ^ e) → t'.size.toNat = t.size.toNat)))

/-- 40_golomb.md R94: reversing the construction recovers the data exactly from the stream, and the
code words of one m are prefix-free. -/
def Obligations.GolombRoundTripsThroughTheStream : Prop :=
  ∀ (a b : Word) (s t : State) (m : Nat), b.toInt = m → exec (.gr a b) s = .next t →
    t.status = 0b00#2 →
    (∀ rest, readGolomb m (t.codeWord ++ rest) = some (a.toNat, rest)) ∧
    ∀ (a' : Word) (s' t' : State), exec (.gr a' b) s' = .next t' → t'.status = 0b00#2 →
      t.codeWord <+: t'.codeWord → a' = a

/-- 40_golomb.md R95: GR succeeds exactly when `q <= 63 - rbits`; the largest data for m = 1, 4 and
`2^63 - 1`, and the two largest codes of the last. -/
def Obligations.GolombLargestDataOfAModulus : Prop :=
  (∀ (a b : Word) (s : State) (m e : Nat), b.toInt = m → 2 ^ e ≤ m → m < 2 ^ (e + 1) →
    ∃ t, exec (.gr a b) s = .next t ∧
      (t.status = 0b00#2 ↔
        a.toNat / m ≤ 63 - (if a.toNat % m < 2 ^ (e + 1) - m then e else e + 1)) ∧
      (t.status ≠ 0b00#2 → t.status = 0b10#2)) ∧
  (∀ (a : Word) (s : State), ∃ t, exec (.gr a 1) s = .next t ∧ (t.status = 0b00#2 ↔ a.toNat ≤ 63) ∧
    (a.toNat = 63 → t.size.toNat = 64)) ∧
  (∀ (a : Word) (s : State), ∃ t, exec (.gr a 4) s = .next t ∧ (t.status = 0b00#2 ↔ a.toNat ≤ 247) ∧
    (a.toNat = 247 → t.size.toNat = 64)) ∧
  (∀ (a : Word) (s : State), ∃ t, exec (.gr a 0x7FFFFFFFFFFFFFFF) s = .next t ∧
    (t.status = 0b00#2 ↔ a.toNat ≤ 2 ^ 63 - 1) ∧
    (a.toNat = 2 ^ 63 - 2 → t.size.toNat = 64 ∧ t.res.toNat = 2 ^ 64 - 1) ∧
    (a.toNat = 2 ^ 63 - 1 → t.size.toNat = 64 ∧ t.res.toNat = 2 ^ 62))

/-! ## EG -/

/-- An EG that completes with a code word, 41_expgolomb.md R114 and R116: RES is `data + 2^k` itself
and SIZE is `2L - k - 1`. L is given by what it is: value has its leading 1 at position L - 1. -/
def Obligations.ExpGolombWritesValueAndSize : Prop :=
  ∀ (a b : Word) (s : State) (k len size : Nat), b.toInt = k →
    2 ^ len ≤ a.toNat + 2 ^ k → a.toNat + 2 ^ k < 2 ^ (len + 1) → size + k + 1 = 2 * (len + 1) →
    size ≤ 64 →
    exec (.eg a b) s = .next { s with
      res := BitVec.ofNat 64 (a.toNat + 2 ^ k), size := BitVec.ofNat Config.SIZE_W size
      status := 0b00#2, rspValid := true }

/-- 41_expgolomb.md R112 and R115: EG overflows for `k >= W` and for an exact size above W; otherwise
`L <= size` and value fits RES. The exact sum has at most W + 1 bits for `k < W`. -/
def Obligations.ExpGolombOverflowsPastTheWidth : Prop :=
  ∀ (a b : Word) (s : State) (k : Nat), b.toInt = k →
    (64 ≤ k → exec (.eg a b) s
      = .next { s with res := 0#64, size := 0#_, status := 0b10#2, rspValid := true }) ∧
    (k < 64 →
      2 ^ k ≤ a.toNat + 2 ^ k ∧ a.toNat + 2 ^ k ≤ 2 ^ 64 - 1 + 2 ^ 63 ∧
      ∀ len size : Nat, 2 ^ len ≤ a.toNat + 2 ^ k → a.toNat + 2 ^ k < 2 ^ (len + 1) →
        size + k + 1 = 2 * (len + 1) →
        (64 < size → exec (.eg a b) s
          = .next { s with res := 0#64, size := 0#_, status := 0b10#2, rspValid := true }) ∧
        (size ≤ 64 → len + 1 ≤ size ∧ a.toNat + 2 ^ k < 2 ^ 64))

/-- 41_expgolomb.md R111: `k < 0` is InvalidParameter, whatever the data, and nothing else of EG is. -/
def Obligations.ExpGolombRejectsNegativeOrder : Prop :=
  ∀ (a b : Word) (s : State),
    (b.toInt < 0 → exec (.eg a b) s
      = .next { s with res := 0#64, size := 0#_, status := 0b01#2, rspValid := true }) ∧
    (0 ≤ b.toInt → ∃ t, exec (.eg a b) s = .next t ∧ t.status ≠ 0b01#2)

/-- 41_expgolomb.md R113 and R117: the bit length from the (W + 1)-bit leading-zero count, its range,
and a size that is never zero, at every width. -/
def Obligations.ExpGolombLengthAndSizeBounds : Prop :=
  ∀ w data k len : Nat, len = bitlen (data + 2 ^ k) →
    k + 1 ≤ len ∧ k + 1 ≤ 2 * len ∧ 2 * len - k - 1 ≥ len ∧ 2 * (len - 1) ≥ 2 * k ∧
    (k < w → data < 2 ^ w → len = (w + 1) - clz (w + 1) (data + 2 ^ k) ∧ len ≤ w + 1)

/-- 41_expgolomb.md R118: the stream form of an EG code word: `L - 1 - k` zeros, then value in L
bits, whose leading bit is a one and the highest one of RES. -/
def Obligations.ExpGolombStreamIsZerosThenValue : Prop :=
  ∀ (a b : Word) (s t : State) (k len : Nat), b.toInt = k →
    2 ^ len ≤ a.toNat + 2 ^ k → a.toNat + 2 ^ k < 2 ^ (len + 1) →
    exec (.eg a b) s = .next t → t.status = 0b00#2 →
    t.codeWord = List.replicate (len - k) false ++ bitstring (a.toNat + 2 ^ k) (len + 1) ∧
    k ≤ len ∧ t.size.toNat - (len + 1) = len - k ∧ t.res.getLsbD len = true ∧
    (∀ j, len < j → t.res.getLsbD j = false) ∧ len + 1 ≤ t.size.toNat

/-- 41_expgolomb.md R119: EG succeeds exactly when `L <= floor((W + 1 + k) / 2)`, so up to one largest
data for each k; the four cases that the rule lists. -/
def Obligations.ExpGolombLargestDataOfAnOrder : Prop :=
  (∀ (a b : Word) (s : State) (k : Nat), b.toInt = k → k ≤ 63 →
    ∃ t, exec (.eg a b) s = .next t ∧
      (t.status = 0b00#2 ↔ a.toNat + 2 ^ k < 2 ^ ((65 + k) / 2)) ∧
      (t.status = 0b00#2 ↔ a.toNat ≤ 2 ^ ((65 + k) / 2) - 2 ^ k - 1) ∧
      (t.status ≠ 0b00#2 → t.status = 0b10#2)) ∧
  (∀ s : State,
    (∃ t, exec (.eg 4294967294 0) s = .next t ∧ t.status = 0b00#2 ∧ t.size.toNat = 63) ∧
    (∃ t, exec (.eg 8589934589 1) s = .next t ∧ t.status = 0b00#2 ∧ t.size.toNat = 64) ∧
    (∃ t, exec (.eg 0x3FFFFFFFFFFFFFFF 62) s = .next t ∧ t.status = 0b00#2 ∧ t.size.toNat = 63) ∧
    (∃ t, exec (.eg 0x7FFFFFFFFFFFFFFF 63) s = .next t ∧ t.status = 0b00#2 ∧ t.size.toNat = 64 ∧
      t.res.toNat = 2 ^ 64 - 1))

/-- 41_expgolomb.md R120: the stream of an EG code word gives the data back, the code words of one k
are prefix-free, and SIZE does not decrease as the data grows over the inputs that succeed. -/
def Obligations.ExpGolombRoundTripsThroughTheStream : Prop :=
  ∀ (a b : Word) (s t : State) (k : Nat), b.toInt = k → exec (.eg a b) s = .next t →
    t.status = 0b00#2 →
    (∀ rest, readExpGolomb k (t.codeWord ++ rest) = some (a.toNat, rest)) ∧
    ∀ (a' : Word) (s' t' : State), exec (.eg a' b) s' = .next t' → t'.status = 0b00#2 →
      (t.codeWord <+: t'.codeWord → a' = a) ∧ (a.toNat ≤ a'.toNat → t.size.toNat ≤ t'.size.toNat)

/-! ## The sign mapper -/

/-- 42_signmap.md R130: MAPN writes the mapped value with SIZE 0; for exactly one input, the most
negative, it overflows. -/
def Obligations.MapNormalWritesTheMappedValue : Prop :=
  ∀ (a b : Word) (s : State),
    (a.toInt = -2 ^ 63 → exec (.mapn a b) s
      = .next { s with res := 0#64, size := 0#_, status := 0b10#2, rspValid := true }) ∧
    (-2 ^ 63 < a.toInt → ∀ n : Nat,
      (a.toInt ≤ 0 → (n : Int) = -2 * a.toInt) → (0 < a.toInt → (n : Int) = 2 * a.toInt - 1) →
      n ≤ 2 ^ 64 - 2 ∧ exec (.mapn a b) s = .next { s with
        res := BitVec.ofNat 64 n, size := 0#_, status := 0b00#2, rspValid := true })

/-- 42_signmap.md R131: MAPR writes the mapped value with SIZE 0 and STATUS OK, for every input. -/
def Obligations.MapRegularWritesTheMappedValue : Prop :=
  ∀ (a b : Word) (s : State) (n : Nat),
    (0 ≤ a.toInt → (n : Int) = 2 * a.toInt) → (a.toInt < 0 → (n : Int) = -2 * a.toInt - 1) →
    n ≤ 2 ^ 64 - 1 ∧ exec (.mapr a b) s = .next { s with
      res := BitVec.ofNat 64 n, size := 0#_, status := 0b00#2, rspValid := true }

/-- 42_signmap.md R132: MAPS writes the mapped value with SIZE 0 and STATUS OK, for every input. -/
def Obligations.MapSpecialWritesTheMappedValue : Prop :=
  ∀ (a b : Word) (s : State) (n : Nat),
    (0 ≤ a.toInt → (n : Int) = 2 * a.toInt + 1) → (a.toInt < 0 → (n : Int) = -2 * (a.toInt + 1)) →
    n ≤ 2 ^ 64 - 1 ∧ exec (.maps a b) s = .next { s with
      res := BitVec.ofNat 64 n, size := 0#_, status := 0b00#2, rspValid := true }

/-- 42_signmap.md R133: a map command ignores B, writes SIZE 0 and never raises InvalidParameter; said
of a step, for the three OP values. -/
def Obligations.MapCommandsIgnoreOperandB : Prop :=
  ∀ (s : State) (b' : Word), s.ports.rst = false → s.ports.cmdValid = true →
    s.ports.cmdOp = 0b010#3 ∨ s.ports.cmdOp = 0b011#3 ∨ s.ports.cmdOp = 0b100#3 →
    ∃ t, step s = .next t ∧ step { s with ports := { s.ports with cmdB := b' } } = .next t ∧
      t.size = 0#_ ∧ t.status ≠ 0b01#2

/-- 42_signmap.md R134: each mapping is a bijection from the integers onto the non-negative integers,
with the inverse that the rule gives; on words MAPR and MAPS are bijections, and MAPN is one from all
words but the most negative onto all words but the largest. -/
def Obligations.MappingsAreBijections : Prop :=
  (∀ v : Int, 0 ≤ mapNormal v ∧ unmapNormal (mapNormal v).toNat = v) ∧
  (∀ y : Nat, mapNormal (unmapNormal y) = y) ∧
  (∀ v : Int, 0 ≤ mapRegular v ∧ unmapRegular (mapRegular v).toNat = v) ∧
  (∀ y : Nat, mapRegular (unmapRegular y) = y) ∧
  (∀ v : Int, 0 ≤ mapSpecial v ∧ unmapSpecial (mapSpecial v).toNat = v) ∧
  (∀ y : Nat, mapSpecial (unmapSpecial y) = y) ∧
  ∀ (s : State) (y b : Word),
    (∃ a : Word, ∀ a', (∃ t, exec (.mapr a' b) s = .next t ∧ t.res = y) ↔ a' = a) ∧
    (∃ a : Word, ∀ a', (∃ t, exec (.maps a' b) s = .next t ∧ t.res = y) ↔ a' = a) ∧
    (y.toNat ≤ 2 ^ 64 - 2 → ∃ a : Word, a.toInt ≠ -2 ^ 63 ∧
      ∀ a', (∃ t, exec (.mapn a' b) s = .next t ∧ t.status = 0b00#2 ∧ t.res = y) ↔ a' = a) ∧
    (y.toNat = 2 ^ 64 - 1 → ¬ ∃ a t, exec (.mapn a b) s = .next t ∧ t.res = y)

/-- 42_signmap.md R135: the datapath identities of the conditional negation and the permutation mux,
on the words that the commands write. -/
def Obligations.MappingsAreTheDatapathIdentities : Prop :=
  ∀ (a b : Word) (s : State),
    (∃ t, exec (.mapr a b) s = .next t ∧ t.res = (a <<< 1) ^^^ (a.sshiftRight 63)) ∧
    (∃ t u, exec (.maps a b) s = .next t ∧ exec (.mapr a b) s = .next u ∧ t.res = u.res ^^^ 1#64) ∧
    (a.toInt ≠ -2 ^ 63 →
      ∃ t u, exec (.mapn a b) s = .next t ∧ exec (.mapr (-a) b) s = .next u ∧ t.res = u.res)

/-- 42_signmap.md R136: what each mapping covers of `[0, 2N]` on a symmetric range, with the gap of
MAPS (90_conflicts.md C3), and that its outputs are distinct. -/
def Obligations.MappingsCoverASymmetricRange : Prop :=
  ∀ (n y : Nat),
    ((∃ v : Int, -n ≤ v ∧ v ≤ n ∧ mapNormal v = y) ↔ y ≤ 2 * n) ∧
    ((∃ v : Int, -n ≤ v ∧ v ≤ n ∧ mapRegular v = y) ↔ y ≤ 2 * n) ∧
    ((∃ v : Int, -n ≤ v ∧ v ≤ n ∧ mapSpecial v = y) ↔ y ≤ 2 * n + 1 ∧ y ≠ 2 * n) ∧
    ((∃ v : Int, -(n + 1) ≤ v ∧ v ≤ n - 1 ∧ mapSpecial v = y) ↔ y ≤ 2 * n) ∧
    ∀ v v' : Int, (mapNormal v = mapNormal v' → v = v') ∧ (mapRegular v = mapRegular v' → v = v') ∧
      (mapSpecial v = mapSpecial v' → v = v')

/-- 42_signmap.md R137: the three mappings give different orders. -/
def Obligations.MappingsDifferPairwise : Prop :=
  ∀ (a b : Word) (s : State), ∃ tn tr ts,
    exec (.mapn a b) s = .next tn ∧ exec (.mapr a b) s = .next tr ∧ exec (.maps a b) s = .next ts ∧
    ts.res = tr.res ^^^ 1#64 ∧ ts.res ≠ tr.res ∧
    (a ≠ 0 → tn.status = 0b00#2 → tn.res ≠ tr.res) ∧
    (a = 0 → tn.res = 0#64 ∧ tr.res = 0#64)

/-! ## The host's side -/

/-- 30_encoding.md R68: SGR and SEG issue the map command and then, only if its STATUS was OK, the
encode of the RES read, which holds the mapped value; for MAPN of the most negative value no encode is
issued and the result is the map command's. That the two commands stand on consecutive edges, before
whatever else the host drives, is the model's own choice (log entry 12, DESIGN CHOICE). -/
def Obligations.SignedSequencesMapThenEncode : Prop :=
  ∀ (e : EncoderName) (m : MapName) (v p : Word) (s : State) (n : Nat),
    (n : Int) = mapValue m v.toInt →
    (m = .n ∧ v.toInt = -2 ^ 63 →
      signedSequence e m v p s
        = .next { s with res := 0#64, size := 0#_, status := 0b10#2, rspValid := true }) ∧
    (¬ (m = .n ∧ v.toInt = -2 ^ 63) →
      signedSequence e m v p s = exec (encodeCommand e (BitVec.ofNat 64 n) p) s)

/-- A signed value comes back from the stream of an SGR or SEG that ends with STATUS OK: read the code
word, then invert the mapping (40_golomb.md R94, 41_expgolomb.md R120, 42_signmap.md R134). -/
def Obligations.SignedSequencesRoundTrip : Prop :=
  ∀ (e : EncoderName) (m : MapName) (v p : Word) (s t : State) (param : Nat) (rest : List Bool),
    p.toInt = param → signedSequence e m v p s = .next t → t.status = 0b00#2 →
    ∃ y : Nat, readCode e param (t.codeWord ++ rest) = some (y, rest) ∧ unmapValue m y = v.toInt

/-- 30_encoding.md R67, as log entry 7 (DESIGN CHOICE) reads it: a decimal that fits the range of its
place becomes the word that reads back as it, map commands get B = 0, a hexadecimal word stands as it
is, RES is the word the host read, a raw bundle reads its operands as its OP's command does and with a
reserved OP takes either range; a decimal outside the range of its place, a hexadecimal number of more
than W bits and an OP above 0b111 are refused. -/
def Obligations.AssemblerWritesOperandsAsRead : Prop :=
  ∀ (r : Word) (x y : Int) (h op : Nat) (a b : AsmOperand),
    (0 ≤ x → x < 2 ^ 64 → -2 ^ 63 ≤ y → y < 2 ^ 63 → ∃ va vb : Word, (va.toNat : Int) = x ∧ vb.toInt = y ∧
      assemble r (.gr (.dec x) (.dec y)) = .ok (.gr va vb) ∧
      assemble r (.eg (.dec x) (.dec y)) = .ok (.eg va vb) ∧
      assemble r (.gr .res (.dec y)) = .ok (.gr r vb) ∧
      assemble r (.eg .res (.dec y)) = .ok (.eg r vb)) ∧
    (-2 ^ 63 ≤ y → y < 2 ^ 63 → ∃ va : Word, va.toInt = y ∧
      assemble r (.mapn (.dec y)) = .ok (.mapn va 0) ∧
      assemble r (.mapr (.dec y)) = .ok (.mapr va 0) ∧
      assemble r (.maps (.dec y)) = .ok (.maps va 0)) ∧
    (assemble r (.gr .res .res) = .ok (.gr r r) ∧ assemble r (.eg .res .res) = .ok (.eg r r) ∧
      assemble r (.mapn .res) = .ok (.mapn r 0) ∧ assemble r (.mapr .res) = .ok (.mapr r 0) ∧
      assemble r (.maps .res) = .ok (.maps r 0)) ∧
    (h < 2 ^ 64 → ∃ va : Word, va.toNat = h ∧
      assemble r (.gr (.hex h) (.hex h)) = .ok (.gr va va) ∧
      assemble r (.eg (.hex h) (.hex h)) = .ok (.eg va va) ∧
      assemble r (.mapn (.hex h)) = .ok (.mapn va 0) ∧
      assemble r (.mapr (.hex h)) = .ok (.mapr va 0) ∧
      assemble r (.maps (.hex h)) = .ok (.maps va 0) ∧
      (op < 8 → assemble r (.cmd op (.hex h) (.hex h))
        = .ok (decode (BitVec.ofNat Config.CMD_W (op * 2 ^ 128 + h * 2 ^ 64 + h))))) ∧
    (x < 0 ∨ 2 ^ 64 ≤ x → assemble r (.gr (.dec x) b) = .error .illFormedLine ∧
      assemble r (.eg (.dec x) b) = .error .illFormedLine) ∧
    (y < -2 ^ 63 ∨ 2 ^ 63 ≤ y → assemble r (.gr a (.dec y)) = .error .illFormedLine ∧
      assemble r (.eg a (.dec y)) = .error .illFormedLine ∧
      assemble r (.mapn (.dec y)) = .error .illFormedLine ∧
      assemble r (.mapr (.dec y)) = .error .illFormedLine ∧
      assemble r (.maps (.dec y)) = .error .illFormedLine) ∧
    (assemble r (.cmd 0 a b) = assemble r (.gr a b) ∧ assemble r (.cmd 1 a b) = assemble r (.eg a b)) ∧
    (-2 ^ 63 ≤ x → x < 2 ^ 63 → -2 ^ 63 ≤ y → y < 2 ^ 63 → ∃ va vb : Word, va.toInt = x ∧ vb.toInt = y ∧
      assemble r (.cmd 2 (.dec x) (.dec y)) = .ok (.mapn va vb) ∧
      assemble r (.cmd 3 (.dec x) (.dec y)) = .ok (.mapr va vb) ∧
      assemble r (.cmd 4 (.dec x) (.dec y)) = .ok (.maps va vb)) ∧
    (2 ≤ op → op ≤ 4 → x < -2 ^ 63 ∨ 2 ^ 63 ≤ x →
      assemble r (.cmd op (.dec x) b) = .error .illFormedLine ∧
      assemble r (.cmd op a (.dec x)) = .error .illFormedLine) ∧
    (-2 ^ 63 ≤ x → x < 2 ^ 64 → -2 ^ 63 ≤ y → y < 2 ^ 64 → ∃ va vb : Word,
      (0 ≤ x → (va.toNat : Int) = x) ∧ (x < 0 → va.toInt = x) ∧
      (0 ≤ y → (vb.toNat : Int) = y) ∧ (y < 0 → vb.toInt = y) ∧
      assemble r (.cmd 5 (.dec x) (.dec y)) = .ok (.reserved101 va vb) ∧
      assemble r (.cmd 6 (.dec x) (.dec y)) = .ok (.reserved110 va vb) ∧
      assemble r (.cmd 7 (.dec x) (.dec y)) = .ok (.reserved111 va vb)) ∧
    (5 ≤ op → x < -2 ^ 63 ∨ 2 ^ 64 ≤ x →
      assemble r (.cmd op (.dec x) b) = .error .illFormedLine ∧
      assemble r (.cmd op a (.dec x)) = .error .illFormedLine) ∧
    (2 ^ 64 ≤ h →
      assemble r (.gr (.hex h) b) = .error .illFormedLine ∧
      assemble r (.gr a (.hex h)) = .error .illFormedLine ∧
      assemble r (.eg (.hex h) b) = .error .illFormedLine ∧
      assemble r (.eg a (.hex h)) = .error .illFormedLine ∧
      assemble r (.mapn (.hex h)) = .error .illFormedLine ∧
      assemble r (.mapr (.hex h)) = .error .illFormedLine ∧
      assemble r (.maps (.hex h)) = .error .illFormedLine ∧
      assemble r (.cmd op (.hex h) b) = .error .illFormedLine ∧
      assemble r (.cmd op a (.hex h)) = .error .illFormedLine) ∧
    (8 ≤ op → assemble r (.cmd op a b) = .error .illFormedLine)

/-- 20_memory.md R51, with several instances as a list of blocks and their edges in any order (log entry
11, DEDUCED): however the edges of several instances are ordered, each instance ends as if it
had run its own edges alone. -/
def Obligations.InstancesRunIndependently : Prop :=
  ∀ (edges : List Nat) (blocks : List State), ∃ blocks', instanceEdges edges blocks = .next blocks' ∧
    blocks'.length = blocks.length ∧
    ∀ (k : Nat) (s : State), blocks[k]? = some s →
      ∃ t, Sys2Proof.core.run (edges.count k) s = .next t ∧ blocks'[k]? = some t
end

