-- ==== Sys2Proof/Laws/Bits.lean ====
section
/-! SUPPORT. The bit-length helpers of 00_scope.md R11 and the integer conversions of R10. -/

namespace Sys2Proof.Machine

/-- `bitlen(x)` is the smallest L with `x < 2^L`. -/
theorem bitlen_le_iff (x len : Nat) : bitlen x ≤ len ↔ x < 2 ^ len := by
  unfold bitlen
  split
  · next h => subst h; simp
  · next h => rw [Nat.succ_le_iff]; exact Nat.log2_lt h

theorem lt_two_pow_bitlen (x : Nat) : x < 2 ^ bitlen x := (bitlen_le_iff x _).1 le_rfl

/-- The bit length from the position of the leading one. -/
theorem bitlen_eq_of_bounds {x e : Nat} (lo : 2 ^ e ≤ x) (hi : x < 2 ^ (e + 1)) :
    bitlen x = e + 1 := by
  refine le_antisymm ((bitlen_le_iff x _).2 hi) ?_
  by_contra h
  have : x < 2 ^ e := (bitlen_le_iff x e).1 (by omega)
  omega

theorem floorLog2_eq_of_bounds {m e : Nat} (lo : 2 ^ e ≤ m) (hi : m < 2 ^ (e + 1)) :
    floorLog2 m = e := by
  simp [floorLog2, bitlen_eq_of_bounds lo hi]

/-- `2^b <= m < 2^(b+1)` for `b = floor_log2(m)` (40_golomb.md R82). -/
theorem floorLog2_bounds {m : Nat} (h : 1 ≤ m) : 2 ^ floorLog2 m ≤ m ∧ m < 2 ^ (floorLog2 m + 1) := by
  have pos : 0 < bitlen m := by
    by_contra hz
    have : m < 2 ^ 0 := (bitlen_le_iff m 0).1 (by omega)
    omega
  have e : floorLog2 m + 1 = bitlen m := by simp [floorLog2]; omega
  refine ⟨?_, e ▸ lt_two_pow_bitlen m⟩
  by_contra hlt
  have := (bitlen_le_iff m (floorLog2 m)).2 (by omega)
  omega

theorem floorLog2_eq_log2 {m : Nat} (h : m ≠ 0) : floorLog2 m = Nat.log2 m := by
  simp [floorLog2, bitlen, h]

/-- An OR of fields that do not overlap is their sum (40_golomb.md R86). -/
theorem two_pow_or_eq_add {k x : Nat} (h : x < 2 ^ k) : 2 ^ k ||| x = 2 ^ k + x := by
  have := Nat.two_pow_add_eq_or_of_lt h 1
  simpa using this.symm

@[simp] theorem toNat_zextW {W n : Nat} (h : n < 2 ^ W) : (zextW n : Word W).toNat = n := by
  simp [zextW, Nat.mod_eq_of_lt h]

/-- SIZE has `bitlen(W)` bits (00_scope.md R7). -/
theorem sizeWidth_eq_bitlen (W : Nat) : Config.sizeWidth W = bitlen W := rfl

/-- A size of at most W is stored exactly in SIZE (00_scope.md R7). -/
theorem toNat_sizeWord {W n : Nat} (h : n ≤ W) : (BitVec.ofNat (Config.sizeWidth W) n).toNat = n := by
  simp only [BitVec.toNat_ofNat]
  exact Nat.mod_eq_of_lt (lt_of_le_of_lt h (lt_two_pow_bitlen W))

/-- The range of `sint` at every width (00_scope.md R10). -/
theorem sint_bounds {W : Nat} (v : Word W) :
    -2 ^ (W - 1) ≤ v.toInt ∧ v.toInt < 2 ^ (W - 1) :=
  ⟨BitVec.le_toInt v, BitVec.toInt_lt⟩

theorem sint_lt (v : Word) : v.toInt < 2 ^ 63 := by
  have := BitVec.toInt_lt (x := v); simpa using this

theorem le_sint (v : Word) : -2 ^ 63 ≤ v.toInt := by
  have := BitVec.le_toInt (x := v); simpa using this

end Sys2Proof.Machine
end

