-- ==== Sys2Proof/Laws/Decode.lean ====
section
/-! SUPPORT. The fields of a bundle, and the OP map read both ways (30_encoding.md R60, R61). -/

namespace Sys2Proof

section Fields

variable {W : Nat} (c : Bundle W) (op : OpWord) (b a : Word W)

theorem toNat_op : c.op.toNat = c.toNat / 2 ^ (2 * W) % 8 := by
  simp [Bundle.op, Config.OP_W, BitVec.extractLsb'_toNat, Nat.shiftRight_eq_div_pow]

theorem toNat_b : c.b.toNat = c.toNat / 2 ^ W % 2 ^ W := by
  simp [Bundle.b, BitVec.extractLsb'_toNat, Nat.shiftRight_eq_div_pow]

theorem toNat_a : c.a.toNat = c.toNat % 2 ^ W := by
  simp [Bundle.a, BitVec.extractLsb'_toNat]

/-- The bundle as one number: OP from `2^(2W)`, B from `2^W`, A below. -/
theorem toNat_make :
    (Bundle.make op b a).toNat = (op.toNat * 2 ^ W + b.toNat) * 2 ^ W + a.toNat := by
  have h : (op ++ b ++ a).toNat = (op.toNat * 2 ^ W + b.toNat) * 2 ^ W + a.toNat := by
    simp only [BitVec.toNat_append]
    rw [← Nat.shiftLeft_add_eq_or_of_lt b.isLt, ← Nat.shiftLeft_add_eq_or_of_lt a.isLt,
      Nat.shiftLeft_eq, Nat.shiftLeft_eq]
  exact h

/-- Three fields of a number, read and put together again. -/
theorem fields_of_number {p o y x : Nat} (hy : y < p) (hx : x < p) :
    ((o * p + y) * p + x) / p = o * p + y ∧ ((o * p + y) * p + x) % p = x ∧
    (o * p + y) / p = o ∧ (o * p + y) % p = y := by
  have hp : 0 < p := by omega
  refine ⟨?_, ?_, ?_, ?_⟩
  · rw [Nat.add_comm, Nat.add_mul_div_right _ _ hp, Nat.div_eq_of_lt hx, Nat.zero_add]
  · rw [Nat.add_comm, Nat.add_mul_mod_self_right, Nat.mod_eq_of_lt hx]
  · rw [Nat.add_comm, Nat.add_mul_div_right _ _ hp, Nat.div_eq_of_lt hy, Nat.zero_add]
  · rw [Nat.add_comm, Nat.add_mul_mod_self_right, Nat.mod_eq_of_lt hy]

theorem toNat_op_eq : c.op.toNat = c.toNat / 2 ^ W / 2 ^ W % 8 := by
  rw [toNat_op, Nat.div_div_eq_div_mul, ← Nat.pow_add, Nat.two_mul]

@[simp] theorem op_make : (Bundle.make op b a).op = op := by
  obtain ⟨h1, -, h3, -⟩ := fields_of_number (o := op.toNat) b.isLt a.isLt
  have ho : op.toNat < 8 := op.isLt
  exact BitVec.eq_of_toNat_eq (by rw [toNat_op_eq, toNat_make, h1, h3, Nat.mod_eq_of_lt ho])

@[simp] theorem b_make : (Bundle.make op b a).b = b := by
  obtain ⟨h1, -, -, h4⟩ := fields_of_number (o := op.toNat) b.isLt a.isLt
  exact BitVec.eq_of_toNat_eq (by rw [toNat_b, toNat_make, h1, h4])

@[simp] theorem a_make : (Bundle.make op b a).a = a := by
  obtain ⟨-, h2, -, -⟩ := fields_of_number (o := op.toNat) b.isLt a.isLt
  exact BitVec.eq_of_toNat_eq (by rw [toNat_a, toNat_make, h2])

/-- Every bundle is made of its fields. -/
theorem make_fields : Bundle.make c.op c.b c.a = c := by
  have hc : c.toNat < 2 ^ (3 + W + W) := c.isLt
  have ho : c.toNat / 2 ^ W / 2 ^ W < 8 := by
    rw [Nat.div_div_eq_div_mul, ← Nat.pow_add]
    refine Nat.div_lt_of_lt_mul ?_
    rw [show 3 + W + W = W + W + 3 by omega, Nat.pow_add] at hc
    exact hc
  exact BitVec.eq_of_toNat_eq (by
    rw [toNat_make, toNat_op_eq, toNat_b, toNat_a, Nat.mod_eq_of_lt ho, Nat.div_add_mod',
      Nat.div_add_mod'])

end Fields

@[simp] theorem decode_make (op : OpWord) (b a : Word) :
    decode (Bundle.make op b a) = commandOf op a b := by simp [decode]

/-- The bundle of the normative width as one number: OP from 2^128, B from 2^64, A below. -/
theorem toNat_make_normative (op : OpWord) (b a : Word) :
    (Bundle.make op b a).toNat = op.toNat * 2 ^ 128 + b.toNat * 2 ^ 64 + a.toNat := by
  rw [toNat_make]
  simp only [Config.W]
  omega

/-- OP as a field of that number. -/
theorem toNat_op_normative (c : Bundle) : c.op.toNat = c.toNat / 2 ^ 128 % 8 := toNat_op c

/-- The eight OP values are all there are. -/
theorem op_cases (op : OpWord) :
    op = 0b000#3 ∨ op = 0b001#3 ∨ op = 0b010#3 ∨ op = 0b011#3 ∨ op = 0b100#3 ∨ op = 0b101#3 ∨
      op = 0b110#3 ∨ op = 0b111#3 := by
  revert op; decide

/-- The OP map gives a command of the OP value it was given, with the operands it was given. -/
theorem fields_commandOf (op : OpWord) (a b : Word) :
    (commandOf op a b).opWord = op ∧ (commandOf op a b).a = a ∧ (commandOf op a b).b = b := by
  rcases op_cases op with h | h | h | h | h | h | h | h <;> subst h <;>
    simp [commandOf, Instr.opWord, Instr.a, Instr.b]

/-- The OP value and the operands of a command spell it. -/
theorem commandOf_fields (i : Instr) : commandOf i.opWord i.a i.b = i := by
  cases i <;> simp [commandOf, Instr.opWord, Instr.a, Instr.b]

end Sys2Proof
end

