-- ==== Sys2Proof/Laws/State.lean ====
section
/-! SUPPORT. What each update of the state leaves in each field, and what the one write of an accepted
command can do. -/

namespace Sys2Proof.Machine

section WriteResult

variable {W : Nat} (res : Word W) (size : SizeWord W) (st : Status) (s : State.Block W)

@[simp] theorem writeResult_res : (s.writeResult res size st).res = res := rfl
@[simp] theorem writeResult_size : (s.writeResult res size st).size = size := rfl
@[simp] theorem writeResult_status : (s.writeResult res size st).status = st.code := rfl
@[simp] theorem writeResult_rspValid : (s.writeResult res size st).rspValid = true := rfl
@[simp] theorem writeResult_ports : (s.writeResult res size st).ports = s.ports := rfl
@[simp] theorem writeResult_later : (s.writeResult res size st).later = s.later := rfl

end WriteResult

section WriteError

variable {W : Nat} (e : CmdError) (s : State.Block W)

@[simp] theorem writeError_res : (s.writeError e).res = 0 := rfl
@[simp] theorem writeError_size : (s.writeError e).size = 0 := rfl
@[simp] theorem writeError_status : (s.writeError e).status = e.status.code := rfl
@[simp] theorem writeError_rspValid : (s.writeError e).rspValid = true := rfl
@[simp] theorem writeError_ports : (s.writeError e).ports = s.ports := rfl
@[simp] theorem writeError_later : (s.writeError e).later = s.later := rfl

end WriteError

section Commit

variable {W : Nat} (r : Except CmdError Result) (v : Result) (e : CmdError) (s : State.Block W)

@[simp] theorem commit_ok :
    s.commit (.ok v) = s.writeResult (zextW v.value) (BitVec.ofNat (Config.sizeWidth W) v.size) .ok := rfl
@[simp] theorem commit_error : s.commit (.error e) = s.writeError e := rfl
@[simp] theorem commit_rspValid : (s.commit r).rspValid = true := by cases r <;> rfl
@[simp] theorem commit_ports : (s.commit r).ports = s.ports := by cases r <;> rfl
@[simp] theorem commit_later : (s.commit r).later = s.later := by cases r <;> rfl

end Commit

section Edges

variable {W : Nat} (s : State.Block W)

@[simp] theorem resetEdge_res : s.resetEdge.res = 0 := rfl
@[simp] theorem resetEdge_size : s.resetEdge.size = 0 := rfl
@[simp] theorem resetEdge_status : s.resetEdge.status = 0b00#2 := rfl
@[simp] theorem resetEdge_rspValid : s.resetEdge.rspValid = false := rfl
@[simp] theorem resetEdge_ports : s.resetEdge.ports = s.ports := rfl
@[simp] theorem resetEdge_later : s.resetEdge.later = s.later := rfl

@[simp] theorem idleEdge_res : s.idleEdge.res = s.res := rfl
@[simp] theorem idleEdge_size : s.idleEdge.size = s.size := rfl
@[simp] theorem idleEdge_status : s.idleEdge.status = s.status := rfl
@[simp] theorem idleEdge_rspValid : s.idleEdge.rspValid = false := rfl
@[simp] theorem idleEdge_ports : s.idleEdge.ports = s.ports := rfl
@[simp] theorem idleEdge_later : s.idleEdge.later = s.later := rfl

@[simp] theorem takeEdge_res : s.takeEdge.res = s.res := rfl
@[simp] theorem takeEdge_size : s.takeEdge.size = s.size := rfl
@[simp] theorem takeEdge_status : s.takeEdge.status = s.status := rfl
@[simp] theorem takeEdge_rspValid : s.takeEdge.rspValid = s.rspValid := rfl
@[simp] theorem takeEdge_ports : s.takeEdge.ports = s.later.headD Ports.idle := rfl
@[simp] theorem takeEdge_later : s.takeEdge.later = s.later.tail := rfl

end Edges

/-! ## STATUS -/

@[simp] theorem status_code_ok : Status.ok.code = 0b00#2 := rfl
@[simp] theorem status_code_invalidParameter : Status.invalidParameter.code = 0b01#2 := rfl
@[simp] theorem status_code_overflow : Status.overflow.code = 0b10#2 := rfl
@[simp] theorem status_code_illegalOp : Status.illegalOp.code = 0b11#2 := rfl

@[simp] theorem cmdError_status_invalidParameter :
    CmdError.invalidParameter.status = .invalidParameter := rfl
@[simp] theorem cmdError_status_overflow : CmdError.overflow.status = .overflow := rfl
@[simp] theorem cmdError_status_illegalOp : CmdError.illegalOp.status = .illegalOp := rfl

/-- The four codes are four (10_state.md R24). -/
theorem status_code_injective {a b : Status} (h : a.code = b.code) : a = b := by
  cases a <;> cases b <;> first | rfl | exact absurd h (by decide)

/-- An error never shows STATUS OK. -/
theorem error_status_ne_ok (e : CmdError) : e.status.code ≠ 0b00#2 := by cases e <;> decide

end Sys2Proof.Machine
end

