-- ==== Sys2Proof/Laws/Step.lean ====
section
/-! SUPPORT. Everything a command and a step can do, said once. -/

namespace Sys2Proof.Machine

/-- The outcome of a command of a block of width W: `execute(OP, A, B)`, a pure function of the three
command fields (10_state.md R31, 30_encoding.md R62, 70_reset_and_hazards.md R171). -/
def outcomeOf {W : Nat} (op : OpWord) (a b : Word W) : Except CmdError Result :=
  if op = 0b000#3 then golomb W Config.grUnaryStyle (dataOperand a) (paramOperand b)
  else if op = 0b001#3 then expGolomb W (dataOperand a) (paramOperand b)
  else if op = 0b010#3 then mapnResult W (valOperand a)
  else if op = 0b011#3 then .ok (mapped (mapRegular (valOperand a)))
  else if op = 0b100#3 then .ok (mapped (mapSpecial (valOperand a)))
  else .error .illegalOp

/-- The outcome of a command of the machine. -/
def resultOf : Instr → Except CmdError Result
  | .gr a b => golomb Config.W Config.grUnaryStyle (dataOperand a) (paramOperand b)
  | .eg a b => expGolomb Config.W (dataOperand a) (paramOperand b)
  | .mapn a _ => mapnResult Config.W (valOperand a)
  | .mapr a _ => .ok (mapped (mapRegular (valOperand a)))
  | .maps a _ => .ok (mapped (mapSpecial (valOperand a)))
  | .reserved101 _ _ => .error .illegalOp
  | .reserved110 _ _ => .error .illegalOp
  | .reserved111 _ _ => .error .illegalOp

/-- A command commits its outcome, and does nothing else, at every width. -/
theorem performAt_eq {W : Nat} (op : OpWord) (a b : Word W) (s : State.Block W) :
    performAt op a b s = .next (s.commit (outcomeOf op a b)) := by
  rcases op_cases op with h | h | h | h | h | h | h | h <;> subst h <;> rfl

theorem resultOf_eq_outcomeOf (i : Instr) : resultOf i = outcomeOf i.opWord i.a i.b := by
  cases i <;> rfl

/-- A command of the machine commits its outcome, and does nothing else. -/
theorem exec_eq (i : Instr) (s : State) : exec i s = .next (s.commit (resultOf i)) := by
  cases i <;> rfl

/-- The commands of the machine are those of the block at the normative width (00_scope.md R7). -/
theorem exec_eq_performAt (i : Instr) (s : State) : exec i s = performAt i.opWord i.a i.b s := by
  rw [exec_eq, performAt_eq, resultOf_eq_outcomeOf]

/-- The machine is the block at the normative width (00_scope.md R7). -/
theorem step_eq_stepAt (s : State) : step s = stepAt s := by
  unfold step stepAt edge
  obtain ⟨h1, h2, h3⟩ := fields_commandOf s.ports.cmdOp s.ports.cmdA s.ports.cmdB
  simp only [exec_eq_performAt, Ports.bundle, decode_make, h1, h2, h3]

/-- What a command can do, from its next state. -/
theorem exec_next {i : Instr} {s t : State} (h : exec i s = .next t) : t = s.commit (resultOf i) := by
  rw [exec_eq] at h
  exact (Host.Outcome.next.inj h).symm

/-- The two ways a commit can end. -/
theorem commit_cases {W : Nat} (r : Except CmdError Result) (s : State.Block W) :
    (∃ v, r = .ok v ∧
      s.commit r = s.writeResult (zextW v.value) (BitVec.ofNat (Config.sizeWidth W) v.size) .ok) ∨
    (∃ e, r = .error e ∧ s.commit r = s.writeError e) := by
  cases r with
  | ok v => exact .inl ⟨v, rfl, rfl⟩
  | error e => exact .inr ⟨e, rfl, rfl⟩

/-- A commit from any two states writes the same result. -/
theorem commit_sameResult {W : Nat} (r : Except CmdError Result) (s s' : State.Block W) :
    (s.commit r).SameResult (s'.commit r) := by
  cases r <;> exact ⟨rfl, rfl, rfl⟩

/-- A commit reads no register: it depends on the ports alone (10_state.md R20). -/
theorem commit_congr {W : Nat} (r : Except CmdError Result) {s t : State.Block W} (hp : t.ports = s.ports)
    (hl : t.later = s.later) : t.commit r = s.commit r := by
  cases r <;> (simp only [State.Block.commit, State.Block.writeError, State.Block.writeResult]; rw [hp, hl])

theorem step_reset {s : State} (h : s.ports.rst = true) : step s = .next s.takeEdge.resetEdge := by
  simp [step, edge, h]

theorem step_accept {s : State} (h : s.ports.rst = false) (hv : s.ports.cmdValid = true) :
    step s = exec (decode s.ports.bundle) s.takeEdge := by
  simp [step, edge, h, hv]

theorem step_idle {s : State} (h : s.ports.rst = false) (hv : s.ports.cmdValid = false) :
    step s = .next s.takeEdge.idleEdge := by
  simp [step, edge, h, hv]

/-- Everything an edge can do, at every width. -/
theorem stepAt_cases {W : Nat} {s t : State.Block W} (h : stepAt s = .next t) :
    (s.ports.rst = true ∧ t = s.takeEdge.resetEdge) ∨
    (s.ports.rst = false ∧ s.ports.cmdValid = true ∧
      t = s.takeEdge.commit (outcomeOf s.ports.cmdOp s.ports.cmdA s.ports.cmdB)) ∨
    (s.ports.rst = false ∧ s.ports.cmdValid = false ∧ t = s.takeEdge.idleEdge) := by
  unfold stepAt edge at h
  cases hr : s.ports.rst <;> simp only [hr, if_true, Bool.false_eq_true, if_false] at h
  · cases hv : s.ports.cmdValid <;> simp only [hv, if_true, Bool.false_eq_true, if_false] at h
    · exact .inr (.inr ⟨rfl, rfl, (Host.Outcome.next.inj h).symm⟩)
    · rw [performAt_eq] at h
      exact .inr (.inl ⟨rfl, rfl, (Host.Outcome.next.inj h).symm⟩)
  · exact .inl ⟨rfl, (Host.Outcome.next.inj h).symm⟩

/-- Everything an edge of the machine can do. -/
theorem step_cases {s t : State} (h : step s = .next t) :
    (s.ports.rst = true ∧ t = s.takeEdge.resetEdge) ∨
    (s.ports.rst = false ∧ s.ports.cmdValid = true ∧
      t = s.takeEdge.commit (resultOf (decode s.ports.bundle))) ∨
    (s.ports.rst = false ∧ s.ports.cmdValid = false ∧ t = s.takeEdge.idleEdge) := by
  obtain ⟨h1, h2, h3⟩ := fields_commandOf s.ports.cmdOp s.ports.cmdA s.ports.cmdB
  rw [Ports.bundle, decode_make, resultOf_eq_outcomeOf, h1, h2, h3]
  exact stepAt_cases (step_eq_stepAt s ▸ h)

/-- Presenting a command's bundle presents the command. -/
theorem decode_present (c : Bundle) : decode (Ports.present c).bundle = decode c := by
  simp [Ports.bundle, Ports.present, decode]

/-- The edge that accepts a presented command commits its outcome. -/
theorem step_present {i : Instr} {s : State} (h : s.ports = Ports.present (encode i)) :
    step s = .next (s.takeEdge.commit (resultOf i)) := by
  rw [step_accept (by rw [h]; rfl) (by rw [h]; rfl), h, decode_present, encode, decode_make,
    commandOf_fields, exec_eq]

theorem SameResult.trans {W : Nat} {s t u : State.Block W} (h : s.SameResult t) (h' : t.SameResult u) : s.SameResult u :=
  ⟨h.1.trans h'.1, h.2.1.trans h'.2.1, h.2.2.trans h'.2.2⟩

theorem SameResult.refl {W : Nat} (s : State.Block W) : s.SameResult s := ⟨rfl, rfl, rfl⟩

/-- A run of one more edge, of any machine. -/
theorem run_of_step (M : Host.Core) (n : Nat) {s t : M.State} (h : M.step s = .next t) :
    M.run (n + 1) s = M.run n t := by
  rw [Host.Core.run, h]

/-- A run of one more edge is an edge and then the run. -/
theorem run_succ (n : Nat) {s t : State} (h : step s = .next t) :
    Sys2Proof.core.run (n + 1) s = Sys2Proof.core.run n t :=
  run_of_step Sys2Proof.core n h

end Sys2Proof.Machine
end

