-- ==== Sys2Proof/Laws/Coders.lean ====
section
/-! SUPPORT. What the coders and the mapper compute, in the terms of the rules: the parts of a command
are given by what they are (quotient, remainder, position of the leading one), not by how they are
computed. -/

namespace Sys2Proof.Machine

/-! ## GR -/

/-- The remainder code fits below the prefix (40_golomb.md R84). -/
theorem remainder_code_lt {m e r : Nat} (hi : m < 2 ^ (e + 1)) (hr : r < m) :
    (r < 2 ^ (e + 1) - m → r < 2 ^ e) ∧ (2 ^ (e + 1) - m ≤ r → r + (2 ^ (e + 1) - m) < 2 ^ (e + 1)) := by
  have := Nat.pow_succ (n := 2) (m := e)
  omega

/-- The quotient and the remainder of the divider are the only ones (40_golomb.md R83). -/
theorem div_mod_of_parts {data m q r : Nat} (hd : data = q * m + r) (hr : r < m) :
    data / m = q ∧ data % m = r := by
  subst hd
  have hm : 0 < m := by omega
  exact ⟨by rw [Nat.add_comm, Nat.add_mul_div_right _ _ hm, Nat.div_eq_of_lt hr, Nat.zero_add],
    by rw [Nat.add_comm, Nat.add_mul_mod_self_right, Nat.mod_eq_of_lt hr]⟩

/-- GR with a short remainder: `r < t` (40_golomb.md R84, R86, R87). -/
theorem golomb_short {w data m e q r : Nat} (lo : 2 ^ e ≤ m) (hi : m < 2 ^ (e + 1))
    (hd : data = q * m + r) (hr : r < m) (ht : r < 2 ^ (e + 1) - m) :
    golomb w .zerosThenOne data (m : Int) =
      if w < q + 1 + e then .error .overflow else .ok { value := 2 ^ e + r, size := q + 1 + e } := by
  have hm : ¬ ((m : Int) ≤ 0) := by omega
  obtain ⟨hq, hrem⟩ := div_mod_of_parts hd hr
  simp only [golomb, hm, if_false, Int.toNat_natCast, golombPositive, floorLog2_eq_of_bounds lo hi, hq,
    hrem, truncatedBinary, ht, if_true, unaryPattern,
    two_pow_or_eq_add ((remainder_code_lt hi hr).1 ht)]

/-- GR with a long remainder: `t <= r` (40_golomb.md R84, R86, R87). -/
theorem golomb_long {w data m e q r : Nat} (lo : 2 ^ e ≤ m) (hi : m < 2 ^ (e + 1))
    (hd : data = q * m + r) (hr : r < m) (ht : 2 ^ (e + 1) - m ≤ r) :
    golomb w .zerosThenOne data (m : Int) =
      if w < q + 1 + (e + 1) then .error .overflow
      else .ok { value := 2 ^ (e + 1) + (r + (2 ^ (e + 1) - m)), size := q + 1 + (e + 1) } := by
  have hm : ¬ ((m : Int) ≤ 0) := by omega
  obtain ⟨hq, hrem⟩ := div_mod_of_parts hd hr
  simp only [golomb, hm, if_false, Int.toNat_natCast, golombPositive, floorLog2_eq_of_bounds lo hi, hq,
    hrem, truncatedBinary, Nat.not_lt.2 ht, unaryPattern,
    two_pow_or_eq_add ((remainder_code_lt hi hr).2 ht)]

/-- Both branches of GR in one form: `rbits` and `rcode` are those of 40_golomb.md R84. -/
theorem golomb_eq {w data m e q r rbits rcode : Nat} (lo : 2 ^ e ≤ m) (hi : m < 2 ^ (e + 1))
    (hd : data = q * m + r) (hr : r < m) (hb : rbits = if r < 2 ^ (e + 1) - m then e else e + 1)
    (hc : rcode = if r < 2 ^ (e + 1) - m then r else r + (2 ^ (e + 1) - m)) :
    rcode < 2 ^ rbits ∧ golomb w .zerosThenOne data (m : Int) =
      if w < q + 1 + rbits then .error .overflow
      else .ok { value := 2 ^ rbits + rcode, size := q + 1 + rbits } := by
  subst hb hc
  by_cases ht : r < 2 ^ (e + 1) - m
  · simp only [ht, if_true]
    exact ⟨(remainder_code_lt hi hr).1 ht, golomb_short lo hi hd hr ht⟩
  · simp only [ht, if_false]
    exact ⟨(remainder_code_lt hi hr).2 (by omega), golomb_long lo hi hd hr (by omega)⟩

/-- The parts of GR exist for every positive modulus (40_golomb.md R82, R83). -/
theorem golomb_parts (data : Nat) {m : Nat} (h : 0 < m) :
    ∃ e q r, 2 ^ e ≤ m ∧ m < 2 ^ (e + 1) ∧ data = q * m + r ∧ r < m :=
  ⟨floorLog2 m, data / m, data % m, (floorLog2_bounds h).1, (floorLog2_bounds h).2,
    (Nat.div_add_mod' data m).symm, Nat.mod_lt _ h⟩

theorem golomb_nonPositive {w data : Nat} {m : Int} (h : m ≤ 0) :
    golomb w .zerosThenOne data m = .error .invalidParameter := by simp [golomb, h]

/-- A modulus that an operand B can hold has at most W - 1 bits (40_golomb.md R82). -/
theorem modulus_log2_lt {b : Word} {m e : Nat} (hb : b.toInt = m) (lo : 2 ^ e ≤ m) : e < 63 := by
  have h : m < 2 ^ 63 := by have := sint_lt b; omega
  exact (Nat.pow_lt_pow_iff_right (by decide : 1 < 2)).1 (lt_of_le_of_lt lo h)

/-! ## EG -/

/-- The leading one of value exists, at position k or above (41_expgolomb.md R113, R117). -/
theorem expGolomb_parts (data k : Nat) :
    ∃ len size, 2 ^ len ≤ data + 2 ^ k ∧ data + 2 ^ k < 2 ^ (len + 1) ∧ size + k + 1 = 2 * (len + 1) ∧
      k ≤ len := by
  have hpos : 1 ≤ data + 2 ^ k := by have := Nat.one_le_two_pow (n := k); omega
  obtain ⟨lo, hi⟩ := floorLog2_bounds hpos
  have hk : k < floorLog2 (data + 2 ^ k) + 1 := by
    refine (Nat.pow_lt_pow_iff_right (by decide : 1 < 2)).1 (lt_of_le_of_lt ?_ hi)
    omega
  exact ⟨_, 2 * (floorLog2 (data + 2 ^ k) + 1) - k - 1, lo, hi, by omega, by omega⟩

/-- The leading one stands at position k or above. -/
theorem order_le_length {data k len : Nat} (hi : data + 2 ^ k < 2 ^ (len + 1)) : k ≤ len := by
  have : k < len + 1 :=
    (Nat.pow_lt_pow_iff_right (by decide : 1 < 2)).1 (lt_of_le_of_lt (by omega : 2 ^ k ≤ _) hi)
  omega

/-- EG of an order below the width (41_expgolomb.md R112 to R116). -/
theorem expGolomb_eq {w data k len size : Nat} (hk : k < w) (lo : 2 ^ len ≤ data + 2 ^ k)
    (hi : data + 2 ^ k < 2 ^ (len + 1)) (hs : size + k + 1 = 2 * (len + 1)) :
    expGolomb w data (k : Int) =
      if w < size then .error .overflow else .ok { value := data + 2 ^ k, size := size } := by
  have h1 : ¬ ((k : Int) < 0) := by omega
  have h2 : ¬ ((w : Int) ≤ k) := by omega
  have h3 : 2 * (len + 1) - k - 1 = size := by omega
  simp only [expGolomb, h1, h2, if_false, Int.toNat_natCast, expGolombOrder, bitlen_eq_of_bounds lo hi, h3]

theorem expGolomb_large {w data k : Nat} (hk : w ≤ k) :
    expGolomb w data (k : Int) = .error .overflow := by
  have h1 : ¬ ((k : Int) < 0) := by omega
  have h2 : (w : Int) ≤ k := by omega
  simp only [expGolomb, h1, h2, if_false, if_true]

theorem expGolomb_negative {w data : Nat} {k : Int} (h : k < 0) :
    expGolomb w data k = .error .invalidParameter := by simp [expGolomb, h]

/-! ## The mapper -/

theorem mapNormal_nonneg (v : Int) : 0 ≤ mapNormal v := by unfold mapNormal; split <;> omega
theorem mapRegular_nonneg (v : Int) : 0 ≤ mapRegular v := by unfold mapRegular; split <;> omega
theorem mapSpecial_nonneg (v : Int) : 0 ≤ mapSpecial v := by unfold mapSpecial; split <;> omega

/-- Every regular and special image of a word fits RES, and every normal one but that of the most
negative word (42_signmap.md R130, R131, R132). -/
theorem mapped_word_fits (a : Word) :
    mapRegular a.toInt < 2 ^ 64 ∧ mapSpecial a.toInt < 2 ^ 64 ∧
    (a.toInt ≠ -2 ^ 63 → mapNormal a.toInt < 2 ^ 64 - 1) := by
  have := sint_lt a
  have := le_sint a
  refine ⟨?_, ?_, ?_⟩
  · unfold mapRegular; split <;> omega
  · unfold mapSpecial; split <;> omega
  · intro h; unfold mapNormal; split <;> omega

theorem mapnResult_ok {a : Word} (h : a.toInt ≠ -2 ^ 63) :
    mapnResult 64 a.toInt = .ok (mapped (mapNormal a.toInt)) := by
  have := (mapped_word_fits a).2.2 h
  have h' : ¬ ((2 : Int) ^ 64 - 1 < mapNormal a.toInt) := by omega
  simp only [mapnResult, h', if_false]

theorem mapnResult_overflow {a : Word} (h : a.toInt = -2 ^ 63) :
    mapnResult 64 a.toInt = .error .overflow := by
  rw [h]; decide

/-! ## What the machine writes -/

/-- A command that succeeds writes its exact result. -/
theorem exec_of_ok {i : Instr} {v : Result} (h : resultOf i = .ok v) (s : State) :
    exec i s = .next { s with
      res := BitVec.ofNat 64 v.value, size := BitVec.ofNat Config.SIZE_W v.size, status := 0b00#2, rspValid := true } := by
  rw [exec_eq, h]; rfl

/-- A command that raises an error performs the error write (60_exceptions.md R151). -/
theorem exec_of_error {i : Instr} {e : CmdError} (h : resultOf i = .error e) (s : State) :
    exec i s = .next { s with
      res := 0#64, size := 0#_, status := e.status.code, rspValid := true } := by
  rw [exec_eq, h]; rfl

/-- A next state with STATUS OK is that of a command that succeeded. -/
theorem ok_of_status {i : Instr} {s t : State} (h : exec i s = .next t) (ht : t.status = 0b00#2) :
    ∃ v, resultOf i = .ok v ∧ t.res = BitVec.ofNat 64 v.value ∧ t.size = BitVec.ofNat Config.SIZE_W v.size := by
  have ht' := exec_next h
  cases hr : resultOf i with
  | ok v => exact ⟨v, rfl, by rw [ht', hr]; rfl, by rw [ht', hr]; rfl⟩
  | error e =>
    rw [ht', hr] at ht
    exact absurd ht (error_status_ne_ok e)

theorem resultOf_gr {a b : Word} {m : Nat} (h : b.toInt = m) :
    resultOf (.gr a b) = golomb 64 .zerosThenOne a.toNat (m : Int) := by
  show golomb 64 .zerosThenOne a.toNat b.toInt = _
  rw [h]

theorem resultOf_eg {a b : Word} {k : Nat} (h : b.toInt = k) :
    resultOf (.eg a b) = expGolomb 64 a.toNat (k : Int) := by
  show expGolomb 64 a.toNat b.toInt = _
  rw [h]

/-! ## The registers after a success -/

/-- After a GR that succeeds: the parts fit, RES is the prefix and the remainder code, SIZE the exact
size (40_golomb.md R86, R87, R92). -/
theorem gr_success {a b : Word} {s t : State} {m e q r rbits rcode : Nat} (hb : b.toInt = m)
    (h : exec (.gr a b) s = .next t) (ht : t.status = 0b00#2) (lo : 2 ^ e ≤ m) (hi : m < 2 ^ (e + 1))
    (hd : a.toNat = q * m + r) (hr : r < m)
    (hrb : rbits = if r < 2 ^ (e + 1) - m then e else e + 1)
    (hrc : rcode = if r < 2 ^ (e + 1) - m then r else r + (2 ^ (e + 1) - m)) :
    q + 1 + rbits ≤ 64 ∧ rcode < 2 ^ rbits ∧ t.res.toNat = 2 ^ rbits + rcode ∧
      t.size.toNat = q + 1 + rbits := by
  obtain ⟨hc, hg⟩ := golomb_eq (w := 64) lo hi hd hr hrb hrc
  obtain ⟨v, hv, h1, h2⟩ := ok_of_status h ht
  rw [resultOf_gr hb, hg] at hv
  by_cases hs : 64 < q + 1 + rbits
  · rw [if_pos hs] at hv; cases hv
  · rw [if_neg hs] at hv; cases hv
    have hp : 2 ^ (rbits + 1) ≤ 2 ^ 64 := Nat.pow_le_pow_right (by decide) (by omega)
    rw [Nat.pow_succ] at hp
    exact ⟨by omega, hc, by rw [h1]; exact toNat_zextW (W := 64) (n := 2 ^ rbits + rcode) (by omega),
      by rw [h2]; exact toNat_sizeWord (W := 64) (by simp only; omega)⟩

/-- After an EG that succeeds: RES is value and SIZE the exact size (41_expgolomb.md R114 to R116). -/
theorem eg_success {a b : Word} {s t : State} {k len size : Nat} (hb : b.toInt = k)
    (h : exec (.eg a b) s = .next t) (ht : t.status = 0b00#2) (lo : 2 ^ len ≤ a.toNat + 2 ^ k)
    (hi : a.toNat + 2 ^ k < 2 ^ (len + 1)) (hs : size + k + 1 = 2 * (len + 1)) :
    k < 64 ∧ size ≤ 64 ∧ t.res.toNat = a.toNat + 2 ^ k ∧ t.size.toNat = size := by
  obtain ⟨v, hv, h1, h2⟩ := ok_of_status h ht
  rw [resultOf_eg hb] at hv
  by_cases hk : 64 ≤ k
  · rw [expGolomb_large hk] at hv; cases hv
  · rw [expGolomb_eq (by omega) lo hi hs] at hv
    have hkl := order_le_length hi
    by_cases h64 : 64 < size
    · rw [if_pos h64] at hv; cases hv
    · rw [if_neg h64] at hv; cases hv
      have hfit : a.toNat + 2 ^ k < 2 ^ 64 :=
        lt_of_lt_of_le hi (Nat.pow_le_pow_right (by decide) (by omega))
      exact ⟨by omega, by omega, by rw [h1]; exact toNat_zextW (W := 64) hfit,
        by rw [h2]; exact toNat_sizeWord (W := 64) (by simp only; omega)⟩

/-- After a MAPR: RES is the mapped value. -/
theorem mapr_value {a b : Word} {s t : State} (h : exec (.mapr a b) s = .next t) :
    (t.res.toNat : Int) = mapRegular a.toInt := by
  rw [exec_of_ok (i := .mapr a b) (v := mapped (mapRegular a.toInt)) rfl s] at h
  cases h
  have := (mapped_word_fits a).1
  have := mapRegular_nonneg a.toInt
  show ((zextW (mapRegular a.toInt).toNat).toNat : Int) = _
  rw [toNat_zextW (W := 64) (n := (mapRegular a.toInt).toNat) (by omega)]
  omega

/-- After a MAPS: RES is the mapped value. -/
theorem maps_value {a b : Word} {s t : State} (h : exec (.maps a b) s = .next t) :
    (t.res.toNat : Int) = mapSpecial a.toInt := by
  rw [exec_of_ok (i := .maps a b) (v := mapped (mapSpecial a.toInt)) rfl s] at h
  cases h
  have := (mapped_word_fits a).2.1
  have := mapSpecial_nonneg a.toInt
  show ((zextW (mapSpecial a.toInt).toNat).toNat : Int) = _
  rw [toNat_zextW (W := 64) (n := (mapSpecial a.toInt).toNat) (by omega)]
  omega

/-- After a MAPN of any value but the most negative: RES is the mapped value. -/
theorem mapn_value {a b : Word} {s t : State} (h : exec (.mapn a b) s = .next t)
    (hne : a.toInt ≠ -2 ^ 63) : (t.res.toNat : Int) = mapNormal a.toInt := by
  rw [exec_of_ok (i := .mapn a b) (mapnResult_ok hne) s] at h
  cases h
  have := (mapped_word_fits a).2.2 hne
  have := mapNormal_nonneg a.toInt
  show ((zextW (mapNormal a.toInt).toNat).toNat : Int) = _
  rw [toNat_zextW (W := 64) (n := (mapNormal a.toInt).toNat) (by omega)]
  omega

end Sys2Proof.Machine
end

