-- ==== Sys2Proof/Laws/PerInstr.lean ====
section
/-! SUPPORT. Statements about every command, one lemma for each constructor. -/

namespace Sys2Proof.Laws

/-- The three fields of a command's bundle are its OP value and its operands (30_encoding.md R60). -/
def BundleFields.Statement (i : Instr) : Prop :=
  (encode i).op = i.opWord ∧ (encode i).b = i.b ∧ (encode i).a = i.a

namespace BundleFields

theorem gr (a b : Word) : Statement (.gr a b) := ⟨op_make _ _ _, b_make _ _ _, a_make _ _ _⟩
theorem eg (a b : Word) : Statement (.eg a b) := ⟨op_make _ _ _, b_make _ _ _, a_make _ _ _⟩
theorem mapn (a b : Word) : Statement (.mapn a b) := ⟨op_make _ _ _, b_make _ _ _, a_make _ _ _⟩
theorem mapr (a b : Word) : Statement (.mapr a b) := ⟨op_make _ _ _, b_make _ _ _, a_make _ _ _⟩
theorem maps (a b : Word) : Statement (.maps a b) := ⟨op_make _ _ _, b_make _ _ _, a_make _ _ _⟩
theorem reserved101 (a b : Word) : Statement (.reserved101 a b) :=
  ⟨op_make _ _ _, b_make _ _ _, a_make _ _ _⟩
theorem reserved110 (a b : Word) : Statement (.reserved110 a b) :=
  ⟨op_make _ _ _, b_make _ _ _, a_make _ _ _⟩
theorem reserved111 (a b : Word) : Statement (.reserved111 a b) :=
  ⟨op_make _ _ _, b_make _ _ _, a_make _ _ _⟩

end BundleFields

end Sys2Proof.Laws
end

