-- ==== Sys2Proof/Laws/Reader.lean ====
section
/-! SUPPORT. The stream of a code word, bit by bit, and the reference readers on it (20_memory.md R42,
40_golomb.md R94, 41_expgolomb.md R120). -/

namespace Sys2Proof.Machine

@[simp] theorem bitstring_zero (code : Nat) : bitstring code 0 = [] := rfl

@[simp] theorem length_bitstring (code size : Nat) : (bitstring code size).length = size := by
  simp [bitstring]

/-- The first bit of the stream is the top bit of the code. -/
theorem bitstring_succ (code size : Nat) :
    bitstring code (size + 1) = code.testBit size :: bitstring code size := by
  simp only [bitstring, List.range_succ_eq_map, List.map_cons, List.map_map]
  refine List.cons_eq_cons.2 ⟨by simp, List.map_congr_left fun i _ => ?_⟩
  simp only [Function.comp_apply]
  congr 1; omega

/-- Codes with the same low bits have the same stream. -/
theorem bitstring_congr {code code' size : Nat}
    (h : ∀ i, i < size → code.testBit i = code'.testBit i) : bitstring code size = bitstring code' size := by
  refine List.map_congr_left fun i hi => h _ ?_
  have := List.mem_range.1 hi
  omega

/-- Above a code that fits `n` bits the stream is zeros. -/
theorem bitstring_pad {code n : Nat} (h : code < 2 ^ n) (z : Nat) :
    bitstring code (z + n) = List.replicate z false ++ bitstring code n := by
  induction z with
  | zero => simp
  | succ z ih =>
    have : code.testBit (z + n) = false :=
      Nat.testBit_lt_two_pow (lt_of_lt_of_le h (Nat.pow_le_pow_right (by decide) (by omega)))
    rw [show z + 1 + n = (z + n) + 1 by omega, bitstring_succ, this, ih]
    simp [List.replicate_succ]

/-- A code whose leading one is at position `n`: that one, then the bits below. -/
theorem bitstring_leading_one {x n : Nat} (h : x < 2 ^ n) :
    bitstring (2 ^ n + x) (n + 1) = true :: bitstring x n := by
  have top : (2 ^ n + x).testBit n = true := by
    rw [Nat.testBit_two_pow_add_eq, Nat.testBit_lt_two_pow h]; rfl
  rw [bitstring_succ, top]
  congr 1
  exact bitstring_congr fun i hi => Nat.testBit_two_pow_add_gt hi x

@[simp] theorem leadingZeros_replicate (z : Nat) (bits : List Bool) :
    leadingZeros (List.replicate z false ++ true :: bits) = some (z, true :: bits) := by
  induction z with
  | zero => rfl
  | succ z ih => simp [List.replicate_succ, leadingZeros, ih]

/-- Reading back as many bits as were written gives the number. -/
theorem readBits_bitstring (n : Nat) : ∀ (acc code : Nat) (rest : List Bool),
    readBits acc n (bitstring code n ++ rest) = some (acc * 2 ^ n + code % 2 ^ n, rest) := by
  induction n with
  | zero => intro acc code rest; simp [readBits, Nat.mod_one]
  | succ n ih =>
    intro acc code rest
    rw [bitstring_succ, List.cons_append, readBits, ih]
    have : code % 2 ^ (n + 1) = (code.testBit n).toNat * 2 ^ n + code % 2 ^ n := by
      rw [Nat.mod_pow_succ, Nat.testBit_eq_decide_div_mod_eq, Nat.add_comm, Nat.mul_comm]
      rcases Nat.mod_two_eq_zero_or_one (code / 2 ^ n) with h | h <;> simp [h]
    rw [this, Nat.pow_succ]
    congr 2
    ring

/-- The same for a number that fits. -/
theorem readBits_of_lt {n code : Nat} (h : code < 2 ^ n) (rest : List Bool) :
    readBits 0 n (bitstring code n ++ rest) = some (code, rest) := by
  rw [readBits_bitstring, Nat.mod_eq_of_lt h]; simp

/-- The remainder is read back from its short form. -/
theorem readRemainder_short {b t r : Nat} (ht : r < t) (hb : r < 2 ^ b) (rest : List Bool) :
    readRemainder b t (bitstring r b ++ rest) = some (r, rest) := by
  simp [readRemainder, readBits_of_lt hb, ht]

/-- The remainder is read back from its long form, when `t` leaves the short form no such prefix. -/
theorem readRemainder_long {b t r : Nat} (ht : t ≤ r) (hb : r + t < 2 ^ (b + 1)) (rest : List Bool) :
    readRemainder b t (bitstring (r + t) (b + 1) ++ rest) = some (r, rest) := by
  have hsplit : bitstring (r + t) (b + 1) = bitstring ((r + t) / 2) b ++ [(r + t).testBit 0] := by
    simp only [bitstring, List.range_succ, List.map_append, List.map_cons, List.map_nil]
    congr 1
    · refine List.map_congr_left fun i hi => ?_
      have := List.mem_range.1 hi
      rw [show b + 1 - 1 - i = (b - 1 - i) + 1 by omega, Nat.testBit_succ]
    · simp
  have hhalf : (r + t) / 2 < 2 ^ b := by rw [Nat.pow_succ] at hb; omega
  have hle : ¬ (r + t) / 2 < t := by omega
  have hbit : ((r + t).testBit 0).toNat = (r + t) % 2 := by
    rw [Nat.testBit_zero]; rcases Nat.mod_two_eq_zero_or_one (r + t) with h | h <;> simp [h]
  rw [hsplit, List.append_assoc, readRemainder, readBits_of_lt hhalf]
  simp only [hle, if_false, List.singleton_append, hbit]
  congr 2
  omega

end Sys2Proof.Machine
end

