-- ==== Sys2Proof/Tests/Slice0.lean ====
section
/-! SUPPORT. Tests of the decoder, of the well-formedness checks and of one step or command at a time,
with results from spec/95_test_vectors.md; and for each statement with hypotheses, values that meet
them. -/

open Sys2Proof Sys2Proof.Machine

namespace Sys2Proof.Tests

/-! ## Decoding: words of 95_test_vectors.md, one for each row of the opcode table -/

theorem test_decode_gr : decodeTableWord 136 0x000000000000000030000000000000005 = some (.gr 5 3) := by
  decide
theorem test_decode_eg : decodeTableWord 136 0x100000000000000000000000000000003 = some (.eg 3 0) := by
  decide
theorem test_decode_mapn :
    decodeTableWord 136 0x200000000000000078000000000000000 = some (.mapn 0x8000000000000000 7) := by
  decide
theorem test_decode_mapr : decodeTableWord 136 0x300000000000000000000000000000002 = some (.mapr 2 0) := by
  decide
theorem test_decode_maps :
    decodeTableWord 136 0x40000000000000000FFFFFFFFFFFFFFFD = some (.maps 0xFFFFFFFFFFFFFFFD 0) := by
  decide
theorem test_decode_reserved101 :
    decodeTableWord 136 0x500000000000000000000000000000000 = some (.reserved101 0 0) := by decide
theorem test_decode_reserved110 :
    decodeTableWord 136 0x600000000000000030000000000000005 = some (.reserved110 5 3) := by decide
theorem test_decode_reserved111 :
    decodeTableWord 136 0x70000000000000000FFFFFFFFFFFFFFFF
      = some (.reserved111 0xFFFFFFFFFFFFFFFF 0) := by decide

/-- A number of more than 131 bits is no bundle. -/
theorem test_decode_too_wide : decodeNumber (2 ^ 131) = .error .widerThanBundle := by decide

/-- 95_test_vectors.md section 2.4 row X7, read the other way. -/
theorem test_encode : encode (.eg 0xFFFFFFFFFFFFFFFF 0xFFFFFFFFFFFFFFFB)
    = (0x1FFFFFFFFFFFFFFFBFFFFFFFFFFFFFFFF : Bundle) := by decide

/-- SIZE_W is `bitlen(W)` (00_scope.md R7). -/
theorem test_size_width : Config.SIZE_W = bitlen Config.W := by decide

/-- The normative prefix style (90_conflicts.md C1). -/
theorem test_unary_style : Config.grUnaryStyle = .zerosThenOne := by decide

/-! ## Ill-formed lines that the checks refuse (30_encoding.md R67) -/

theorem smoke_gr_data_negative : (AsmLine.gr (.dec (-1)) (.dec 3)).wf = false := by decide
theorem smoke_gr_data_too_large : (AsmLine.gr (.dec (2 ^ 64)) (.dec 3)).wf = false := by decide
theorem smoke_gr_modulus_too_large : (AsmLine.gr (.dec 5) (.dec (2 ^ 63))).wf = false := by decide
theorem smoke_eg_data_negative : (AsmLine.eg (.dec (-1)) (.dec 0)).wf = false := by decide
theorem smoke_eg_order_too_small : (AsmLine.eg (.dec 5) (.dec (-2 ^ 63 - 1))).wf = false := by decide
theorem smoke_mapn_too_large : (AsmLine.mapn (.dec (2 ^ 63))).wf = false := by decide
theorem smoke_mapr_too_small : (AsmLine.mapr (.dec (-2 ^ 63 - 1))).wf = false := by decide
theorem smoke_maps_hex_too_wide : (AsmLine.maps (.hex (2 ^ 64))).wf = false := by decide
theorem smoke_gr_hex_too_wide : (AsmLine.gr (.hex (2 ^ 64)) (.dec 3)).wf = false := by decide
theorem smoke_cmd_op : (AsmLine.cmd 8 (.dec 0) (.dec 0)).wf = false := by decide
theorem smoke_cmd_reserved_a : (AsmLine.cmd 5 (.dec (2 ^ 64)) (.dec 0)).wf = false := by decide
theorem smoke_cmd_reserved_b : (AsmLine.cmd 5 (.dec 0) (.dec (-2 ^ 63 - 1))).wf = false := by decide

/-- Line X8 of 95_test_vectors.md section 2.4. -/
theorem test_assemble_cmd :
    (assemble (0 : Word) (.cmd 2 (.dec (-2)) (.hex 0x123456789ABCDEF0))).map encode
      = .ok (0x2123456789ABCDEF0FFFFFFFFFFFFFFFE : Bundle) := by decide

/-! ## Commands: vectors of 95_test_vectors.md -/

/-- What a command leaves in RES, SIZE, STATUS and RSP_VALID, from the reset state. -/
def shown (i : Instr) : Option (Word × SizeWord × StatusWord × Bool) :=
  match exec i State.reset with
  | .next t => some (t.rspRes, t.rspSize, t.rspStatus, t.rspValidPort)
  | .fault _ => none
  | .refused _ => none

/-- Rows G24 and G25: the first long remainder for m = 5 is not the last short one. -/
theorem test_gr_long_remainder : shown (.gr 3 5) = some (0xE, 4, 0b00, true) := by decide
/-- Row G35: the widest code. -/
theorem test_gr_widest :
    shown (.gr 0x7FFFFFFFFFFFFFFE 0x7FFFFFFFFFFFFFFF) = some (0xFFFFFFFFFFFFFFFF, 64, 0b00, true) := by
  decide
/-- Row E12. -/
theorem test_eg_order_four : shown (.eg 255 4) = some (0x10F, 13, 0b00, true) := by decide
/-- Row E26: the first overflow at k = 63. -/
theorem test_eg_overflow : shown (.eg 0x8000000000000000 63) = some (0, 0, 0b10, true) := by decide
/-- Row M2. -/
theorem test_mapn_most_negative_legal :
    shown (.mapn 0x8000000000000001 0) = some (0xFFFFFFFFFFFFFFFE, 0, 0b00, true) := by decide
/-- Row X11. -/
theorem test_mapn_overflow : shown (.mapn 0x8000000000000000 7) = some (0, 0, 0b10, true) := by decide
/-- Row M1. -/
theorem test_mapr_most_negative :
    shown (.mapr 0x8000000000000000 0) = some (0xFFFFFFFFFFFFFFFF, 0, 0b00, true) := by decide
/-- Row M1. -/
theorem test_maps_most_negative :
    shown (.maps 0x8000000000000000 0) = some (0xFFFFFFFFFFFFFFFE, 0, 0b00, true) := by decide
/-- Row M7: the branch point. -/
theorem test_maps_zero : shown (.maps 0 0) = some (1, 0, 0b00, true) := by decide
/-- Row X5: IllegalOp wins over Overflow. -/
theorem test_reserved101 : shown (.reserved101 0xFFFFFFFFFFFFFFFF 1) = some (0, 0, 0b11, true) := by decide
/-- Row X2. -/
theorem test_reserved110 :
    shown (.reserved110 0xFFFFFFFFFFFFFFFF 0xFFFFFFFFFFFFFFFF) = some (0, 0, 0b11, true) := by decide
/-- Row X4: IllegalOp wins over InvalidParameter. -/
theorem test_reserved111 : shown (.reserved111 7 0) = some (0, 0, 0b11, true) := by decide

/-! ## Edges: vectors of 95_test_vectors.md section 2.5 -/

/-- A block that shows the result of `GR 5, 3`, with the next levels on its ports. -/
def showing (p : Ports) (later : List Ports) : State :=
  { res := 7, size := 4, status := 0b00, rspValid := true, ports := p, later := later }

/-- The registers after one edge. -/
def afterEdge (s : State) : Option (Word × SizeWord × StatusWord × Bool) :=
  match step s with
  | .next t => some (t.res, t.size, t.status, t.rspValid)
  | .fault _ => none
  | .refused _ => none

/-- Row T2: reset wins over an offered command. -/
theorem test_reset_wins :
    afterEdge (showing { Ports.present (encode (.gr 5 3)) with rst := true } []) = some (0, 0, 0b00, false) := by
  decide
/-- Row T4: an idle edge holds the result and ignores the command fields. -/
theorem test_idle_edge :
    afterEdge (showing { Ports.present (encode (.gr 0 0)) with cmdValid := false } [])
      = some (7, 4, 0b00, false) := by decide
/-- Rows T6 and T7: a command is accepted, and an error is a result like any other. -/
theorem test_accepting_edge :
    afterEdge (showing (Ports.present (encode (.gr 7 0))) []) = some (0, 0, 0b01, true) := by decide
/-- The first step after reset runs the presented table word. -/
theorem test_withFetchWord :
    afterEdge (State.reset.withFetchWord 136 0x100000000000000000000000000000003)
      = some (4, 5, 0b00, true) := by decide

/-! ## The host's side: vectors of 95_test_vectors.md -/

/-- Row S1, corrected. -/
theorem test_bitstring : bitstring 7 4 = [false, true, true, true] := by decide
/-- Row D-G16. -/
theorem test_readGolomb : readGolomb 3 [false, true, true, true] = some (5, []) := by decide
/-- Row D-E15, with another code word behind it. -/
theorem test_readExpGolomb :
    readExpGolomb 1 [false, true, false, false, true] = some (2, [true]) := by decide
/-- Program P1, edges e1 and e2: `SGR.N -2, 3`. -/
theorem test_sequence : (match signedSequence .gr .n 0xFFFFFFFFFFFFFFFE 3 State.reset with
    | .next t => some (t.res, t.size, t.status)
    | _ => none) = some (6, 4, 0b00) := by decide

/-! ## Values that meet the hypotheses of the statements -/

theorem witness_OpMapSelectsTheCommand :
    (0x70000000000000000FFFFFFFFFFFFFFFF : Bundle).toNat
      = (7 : Fin 8).val * 2 ^ 128 + (0 : Word).toNat * 2 ^ 64 + (0xFFFFFFFFFFFFFFFF : Word).toNat ∧
    (0x0 : Bundle).toNat = (0 : Fin 8).val * 2 ^ 128 + (0 : Word).toNat * 2 ^ 64 + (0 : Word).toNat := by decide

theorem witness_DecodeOfEncodeIsTheCommand : (.mapn 1 0xFFFFFFFFFFFFFFFF : Instr).wf = true := by decide

theorem witness_EncodeOfDecodeIsTheBundle :
    encode (.gr 5 3) = (0x000000000000000030000000000000005 : Bundle) := by decide

theorem witness_EveryBundleMatchesOneTableRow : ∃ row ∈ opcodeTable,
    row.matches (0x70000000000000000FFFFFFFFFFFFFFFF : Bundle) = true := by decide

theorem witness_StatusFollowsTheCauseTable :
    ∃ t, exec (.eg 5 0xFFFFFFFFFFFFFFFF) State.reset = .next t ∧ t.status ≠ 0b00#2 :=
  ⟨_, rfl, by decide⟩

theorem witness_StepRunsThePresentedCommand :
    let s := showing (Ports.present (encode (.eg 3 0))) [Ports.resetting]
    s.ports.rst = false ∧ s.ports.cmdValid = true ∧ (.eg 3 0 : Instr).wf = true ∧
      decode (Bundle.make s.ports.cmdOp s.ports.cmdB s.ports.cmdA) = .eg 3 0 ∧
      s.later = Ports.resetting :: [] ∧
      (showing (Ports.present (encode (.eg 3 0))) []).later = [] := by decide

theorem witness_EveryEdgeFollowsTheCycleRule :
    (showing Ports.resetting []).ports.rst = true ∧
    ((showing (Ports.present 0) []).ports.rst = false ∧ (showing (Ports.present 0) []).ports.cmdValid = true) ∧
    ((showing Ports.idle []).ports.rst = false ∧ (showing Ports.idle []).ports.cmdValid = false) := by decide

theorem witness_ResetEdgeClearsTheRegisters :
    (showing { rst := true, cmdValid := true, cmdOp := 0, cmdA := 5, cmdB := 3 } []).ports
      = { rst := true, cmdValid := true, cmdOp := 0, cmdA := 5, cmdB := 3 } := by decide

theorem witness_IdleEdgeHoldsTheResult :
    (showing Ports.idle []).ports.rst = false ∧ (showing Ports.idle []).ports.cmdValid = false := by
  decide

theorem witness_EveryEdgeTakesTheNextLevels :
    (∃ t, step (showing (Ports.present (encode (.gr 5 3))) [Ports.resetting]) = .next t) ∧
    (showing (Ports.present (encode (.gr 5 3))) [Ports.resetting]).later = Ports.resetting :: [] ∧
    (∃ t, step (showing Ports.resetting []) = .next t) ∧ (showing Ports.resetting []).later = [] :=
  ⟨⟨_, rfl⟩, rfl, ⟨_, rfl⟩, rfl⟩

theorem witness_RspValidMarksAcceptingEdges :
    ∃ t, step (showing (Ports.present (encode (.gr 5 3))) []) = .next t := ⟨_, rfl⟩

theorem witness_EqualCommandsWriteEqualResults :
    let s := showing (Ports.present (encode (.gr 5 3))) []
    let s' := State.reset.withFetchWord 136 0x000000000000000030000000000000005
    s.ports.rst = false ∧ s'.ports.rst = false ∧ s.ports.cmdValid = true ∧ s'.ports.cmdValid = true ∧
      s.ports.cmdOp = s'.ports.cmdOp ∧ s.ports.cmdA = s'.ports.cmdA ∧ s.ports.cmdB = s'.ports.cmdB ∧
      s.res ≠ s'.res ∧ (∃ t, step s = .next t) ∧ ∃ t', step s' = .next t' :=
  ⟨rfl, rfl, rfl, rfl, rfl, rfl, rfl, by decide, ⟨_, rfl⟩, ⟨_, rfl⟩⟩

theorem witness_ResultIsHeldUntilTheNextCommand :
    let s := showing (Ports.present (encode (.maps 3 0))) [Ports.idle, Ports.idle, Ports.resetting]
    s.ports = Ports.present (encode (.maps 3 0)) ∧ 2 ≤ s.later.length ∧
      (∀ p ∈ s.later.take 2, p.rst = false ∧ p.cmdValid = false) ∧
      (∀ p ∈ s.later.take 0, p.rst = false ∧ p.cmdValid = false) := by decide

theorem witness_BackToBackCommandsTakeEffectInOrder :
    let s := showing (Ports.present (encode (.eg 0 1))) [Ports.present (encode (.eg 1 1)), Ports.idle]
    s.ports :: s.later
      = ([.eg 0 1] ++ [.eg 1 1] : List Instr).map (fun j => Ports.present (encode j)) ++ [Ports.idle] := by decide

theorem witness_ResetEdgeEstablishesTheInvariants :
    (showing Ports.resetting []).ports.rst = true ∧ (Ports.resetting : Ports).rst = true ∧
      ∃ t, step (showing Ports.resetting []) = .next t := ⟨rfl, rfl, _, rfl⟩

/-- A state that is not the reset state, and the step from it. -/
theorem witness_EveryStepKeepsTheRegisterInvariant :
    (showing (Ports.present (encode (.gr 5 3))) []).Inv ∧
      ∃ t, step (showing (Ports.present (encode (.gr 5 3))) []) = .next t :=
  ⟨⟨by decide, fun h => absurd rfl h, fun _ => by decide⟩, _, rfl⟩

theorem witness_EveryStepKeepsTheRegistersExplained :
    (showing (Ports.present (encode (.mapr 2 0))) []).Explained ∧
      ∃ t, step (showing (Ports.present (encode (.mapr 2 0))) []) = .next t := by
  have h : (showing (Ports.present (encode (.mapr 2 0))) []).Shows (.gr 5 3) :=
    ⟨State.reset, _, rfl, rfl, rfl, rfl⟩
  exact ⟨⟨.inr ⟨_, h⟩, fun _ => ⟨_, h⟩⟩, _, rfl⟩

theorem witness_ReservedOpsGiveIllegalOp :
    ∀ i ∈ ([.reserved101 7 0, .reserved110 7 0, .reserved111 7 0] : List Instr),
      i = .reserved101 7 0 ∨ i = .reserved110 7 0 ∨ i = .reserved111 7 0 := by decide

theorem witness_SizeZeroIsNoCodeWord :
    (∃ t, exec (.maps 0 0) State.reset = .next t ∧ t.size = 0#7 ∧ t.status = 0b00#2) ∧
    (∃ t, exec (.gr 63 1) State.reset = .next t ∧ t.size.toNat = 64 ∧ t.status = 0b00#2) ∧
    (∃ t, exec (.eg 0 0) State.reset = .next t ∧ t.size.toNat = 1 ∧ t.status = 0b00#2) :=
  ⟨⟨_, rfl, rfl, rfl⟩, ⟨_, rfl, rfl, rfl⟩, ⟨_, rfl, rfl, rfl⟩⟩

theorem witness_BitLengthIsTheSmallestFit :
    (0 : Nat) < 2 ^ 0 ∧ (2 ^ 64 - 1 < 2 ^ 64) ∧ (1 ≤ 1 ∧ 1 < 2 ^ 1) ∧ 0 < clz 1 0 := by decide

theorem witness_CodeWordIsReadMsbFirst :
    3 < (showing Ports.idle []).size.toNat ∧
    (showing Ports.idle []).res.toNat < 2 ^ (showing Ports.idle []).size.toNat := by decide

theorem witness_ResultsFitEveryWidth :
    golomb 8 .zerosThenOne 7 1 = .ok ⟨1, 8⟩ ∧ expGolomb 8 127 7 = .ok ⟨255, 8⟩ ∧
    mapnResult 8 (-127) = .ok ⟨254, 0⟩ ∧
    (1 ≤ 8 ∧ (-2 ^ (8 - 1) : Int) ≤ -128 ∧ (-128 : Int) < 2 ^ (8 - 1) ∧ (-2 ^ (8 - 1) : Int) ≤ 127 ∧
      (127 : Int) < 2 ^ (8 - 1)) ∧
    (1 ≤ 1 ∧ (-2 ^ (1 - 1) : Int) ≤ -1 ∧ (-1 : Int) < 2 ^ (1 - 1)) := by decide

/-- A block of width 8 that shows the result of `GR 5, 3`. -/
def showing8 (p : Ports 8) : State.Block 8 :=
  { res := 7, size := 4, status := 0b00, rspValid := true, ports := p, later := [] }

theorem witness_MachineIsTheBlockAtTheNormativeWidth : Config.sizeWidth 8 = 4 ∧ Config.cmdWidth 8 = 19 := by
  decide

theorem witness_EveryWidthKeepsTheRegisterInvariant :
    (showing8 Ports.idle).Inv ∧ ∃ t, stepAt (showing8 Ports.idle) = .next t :=
  ⟨⟨by decide, fun h => absurd rfl h, fun _ => by decide⟩, _, rfl⟩

/-- At width 8: GR 7 by 1 (size 8) and 8 by 1 (size 9), with both remainder branches for m = 3; EG of
127 of order 7 (size 8), of 128 of order 7 (size 10) and of order 8; a modulus and an order that are
invalid; the most negative value, the next one, 0 and 1. -/
theorem witness_EveryWidthWritesExactResults :
    1 ≤ 8 ∧
    ((1 : Word 8).toInt = (1 : Nat) ∧ 2 ^ 0 ≤ 1 ∧ 1 < 2 ^ (0 + 1) ∧ (7 : Word 8).toNat = 7 * 1 + 0 ∧
      (8 : Word 8).toNat = 8 * 1 + 0 ∧ 0 < 1 ∧ 0 = (if 0 < 2 ^ (0 + 1) - 1 then 0 else 0 + 1) ∧
      0 = (if 0 < 2 ^ (0 + 1) - 1 then 0 else 0 + (2 ^ (0 + 1) - 1)) ∧ 7 + 1 + 0 ≤ 8 ∧ 8 < 8 + 1 + 0) ∧
    ((3 : Word 8).toInt = (3 : Nat) ∧ 2 ^ 1 ≤ 3 ∧ 3 < 2 ^ (1 + 1) ∧ (5 : Word 8).toNat = 1 * 3 + 2 ∧ 2 < 3 ∧
      2 = (if 2 < 2 ^ (1 + 1) - 3 then 1 else 1 + 1) ∧
      3 = (if 2 < 2 ^ (1 + 1) - 3 then 2 else 2 + (2 ^ (1 + 1) - 3)) ∧ 1 + 1 + 2 ≤ 8) ∧
    ((7 : Word 8).toInt = (7 : Nat) ∧ 2 ^ 7 ≤ (127 : Word 8).toNat + 2 ^ 7 ∧
      (127 : Word 8).toNat + 2 ^ 7 < 2 ^ (7 + 1) ∧ 8 + 7 + 1 = 2 * (7 + 1) ∧ 8 ≤ 8) ∧
    (2 ^ 8 ≤ (128 : Word 8).toNat + 2 ^ 7 ∧ (128 : Word 8).toNat + 2 ^ 7 < 2 ^ (8 + 1) ∧
      10 + 7 + 1 = 2 * (8 + 1) ∧ 8 < 10) ∧
    ((8 : Word 8).toInt = (8 : Nat) ∧ 2 ^ 8 ≤ (0 : Word 8).toNat + 2 ^ 8 ∧
      (0 : Word 8).toNat + 2 ^ 8 < 2 ^ (8 + 1) ∧ 9 + 8 + 1 = 2 * (8 + 1) ∧ 8 < 9) ∧
    ((0 : Word 8).toInt ≤ 0 ∧ (0xFF : Word 8).toInt < 0) ∧
    ((0x80 : Word 8).toInt = -2 ^ (8 - 1) ∧ ((256 : Nat) : Int) = -2 * (0x80 : Word 8).toInt) ∧
    ((0x81 : Word 8).toInt ≠ -2 ^ (8 - 1) ∧ ((254 : Nat) : Int) = -2 * (0x81 : Word 8).toInt ∧
      ((253 : Nat) : Int) = -2 * (0x81 : Word 8).toInt - 1 ∧
      ((252 : Nat) : Int) = -2 * ((0x81 : Word 8).toInt + 1)) ∧
    (((1 : Nat) : Int) = 2 * (1 : Word 8).toInt - 1 ∧ ((2 : Nat) : Int) = 2 * (1 : Word 8).toInt ∧
      ((3 : Nat) : Int) = 2 * (1 : Word 8).toInt + 1) := by decide

theorem witness_TruncatedBinaryFitsItsBits :
    2 ^ 2 ≤ 5 ∧ 5 < 2 ^ (2 + 1) ∧ 2 < 5 ∧ 3 = 2 ^ (2 + 1) - 5 ∧
    truncatedBinary 2 3 2 = (2, 2) ∧ truncatedBinary 2 3 3 = (6, 3) ∧ 3 < 5 := by decide

theorem witness_GolombNeedsOneBitMoreThanTheWidth :
    2 ^ 64 - 1 < 2 ^ 64 ∧ 1 ≤ 2 ^ 63 - 1 ∧ 2 ^ 63 - 1 < 2 ^ (64 - 1) ∧
    truncatedBinary (floorLog2 (2 ^ 63 - 1)) (2 ^ (floorLog2 (2 ^ 63 - 1) + 1) - (2 ^ 63 - 1))
      ((2 ^ 64 - 1) % (2 ^ 63 - 1)) = (2, 63) := by decide

/-- Rows G20 (short, size 64) and G35 (long, size 64). -/
theorem witness_GolombWritesPrefixAndRemainder :
    ((4 : Word).toInt = (4 : Nat) ∧ 2 ^ 2 ≤ 4 ∧ 4 < 2 ^ (2 + 1) ∧ (247 : Word).toNat = 61 * 4 + 3 ∧
      3 < 4 ∧ 3 < 2 ^ (2 + 1) - 4 ∧ 61 + 1 + 2 ≤ 64) ∧
    ((0x7FFFFFFFFFFFFFFF : Word).toInt = (2 ^ 63 - 1 : Nat) ∧ 2 ^ 62 ≤ 2 ^ 63 - 1 ∧
      2 ^ 63 - 1 < 2 ^ (62 + 1) ∧ (0x7FFFFFFFFFFFFFFE : Word).toNat = 0 * (2 ^ 63 - 1) + (2 ^ 63 - 2) ∧
      2 ^ 63 - 2 < 2 ^ 63 - 1 ∧ 2 ^ (62 + 1) - (2 ^ 63 - 1) ≤ 2 ^ 63 - 2 ∧ 0 + 1 + (62 + 1) ≤ 64) := by
  decide

/-- Rows G5 (size 64) and G6 (size 65). -/
theorem witness_GolombOverflowsPastTheWidth :
    (1 : Word).toInt = (1 : Nat) ∧ 2 ^ 0 ≤ 1 ∧ 1 < 2 ^ (0 + 1) ∧ (63 : Word).toNat = 63 * 1 + 0 ∧
    (64 : Word).toNat = 64 * 1 + 0 ∧ 0 < 1 ∧ 0 = (if 0 < 2 ^ (0 + 1) - 1 then 0 else 0 + 1) ∧
    63 + 1 + 0 ≤ 64 ∧ 64 < 64 + 1 + 0 := by decide

theorem witness_GolombRejectsNonPositiveModulus :
    (0 : Word).toInt ≤ 0 ∧ (0x8000000000000000 : Word).toInt ≤ 0 ∧ 0 < (1 : Word).toInt := by decide

/-- Row G32. -/
theorem witness_GolombByPowerOfTwoIsRice :
    (0x4000000000000000 : Word).toInt = 2 ^ 62 ∧
    (0x4000000000000000 : Word).toNat / 2 ^ 62 + 1 + 62 ≤ 64 := by decide

theorem witness_GolombByOneIsUnary :
    (1 : Word).toInt = 1 ∧ (63 : Word).toNat ≤ 63 ∧ 64 ≤ (64 : Word).toNat := by decide

/-- Row G16, for the statements about a GR that succeeds with given parts, and G14 for the other
branch. -/
theorem witness_GolombCodeHasItsTopBitAtTheRemainderWidth :
    ((3 : Word).toInt = (3 : Nat) ∧ 2 ^ 1 ≤ 3 ∧ 3 < 2 ^ (1 + 1) ∧ (5 : Word).toNat = 1 * 3 + 2 ∧ 2 < 3 ∧
      2 = if 2 < 2 ^ (1 + 1) - 3 then 1 else 1 + 1) ∧
    ∃ t, exec (.gr 5 3) State.reset = .next t ∧ t.status = 0b00#2 := ⟨by decide, _, rfl, rfl⟩

theorem witness_GolombStreamIsUnaryThenRemainder :
    ((3 : Word).toInt = (3 : Nat) ∧ 2 ^ 1 ≤ 3 ∧ 3 < 2 ^ (1 + 1) ∧ (3 : Word).toNat = 1 * 3 + 0 ∧ 0 < 3 ∧
      0 < 2 ^ (1 + 1) - 3 ∧ (5 : Word).toNat = 1 * 3 + 2 ∧ 2 < 3 ∧ 2 ^ (1 + 1) - 3 ≤ 2) ∧
    (∃ t, exec (.gr 3 3) State.reset = .next t ∧ t.status = 0b00#2) ∧
    ∃ t, exec (.gr 5 3) State.reset = .next t ∧ t.status = 0b00#2 :=
  ⟨by decide, ⟨_, rfl, rfl⟩, _, rfl, rfl⟩

/-- m = 3 from data 5, the last remainder of a quotient, to 6; m = 4 from 3 to 4; m = 1 past the
limit. -/
theorem witness_GolombSizeIsMonotone :
    ((3 : Word).toInt = (3 : Nat) ∧ (5 : Word).toNat ≤ (6 : Word).toNat ∧ (5 : Word).toNat % 3 = 3 - 1 ∧
      (6 : Word).toNat = (5 : Word).toNat + 1 ∧
      ∃ t t', exec (.gr 5 3) State.reset = .next t ∧ exec (.gr 6 3) State.reset = .next t' ∧
        t.status = 0b00#2 ∧ t'.status = 0b00#2) ∧
    ((4 : Word).toInt = (4 : Nat) ∧ (3 : Word).toNat % 4 = 4 - 1 ∧ (4 : Nat) = 2 ^ 2 ∧
      ∃ t t', exec (.gr 3 4) State.reset = .next t ∧ exec (.gr 4 4) State.reset = .next t' ∧
        t.status = 0b00#2 ∧ t'.status = 0b00#2) ∧
    ((1 : Word).toInt = (1 : Nat) ∧ ∃ t, exec (.gr 64 1) State.reset = .next t ∧ t.status = 0b10#2) :=
  ⟨⟨by decide, by decide, by decide, by decide, _, _, rfl, rfl, rfl, rfl⟩,
    ⟨by decide, by decide, by decide, _, _, rfl, rfl, rfl, rfl⟩, by decide, _, rfl, rfl⟩

/-- A modulus of 3 is no power of two: the clause of `GolombSizeIsMonotone` for such moduli is met. -/
theorem witness_GolombSizeIsMonotone_no_power : ¬ ∃ e, (3 : Nat) = 2 ^ e := by
  rintro ⟨_ | _ | e, h⟩
  · exact absurd h (by decide)
  · exact absurd h (by decide)
  · rw [Nat.pow_succ, Nat.pow_succ] at h; omega

theorem witness_GolombRoundTripsThroughTheStream :
    (3 : Word).toInt = (3 : Nat) ∧
    ∃ t, exec (.gr 5 3) State.reset = .next t ∧ t.status = 0b00#2 ∧ t.codeWord <+: t.codeWord :=
  ⟨by decide, _, rfl, rfl, List.prefix_rfl⟩

/-- The largest modulus, and the three moduli of the rule at their largest data. -/
theorem witness_GolombLargestDataOfAModulus :
    (0x7FFFFFFFFFFFFFFF : Word).toInt = (2 ^ 63 - 1 : Nat) ∧ 2 ^ 62 ≤ 2 ^ 63 - 1 ∧
    2 ^ 63 - 1 < 2 ^ (62 + 1) ∧ (63 : Word).toNat = 63 ∧ (247 : Word).toNat = 247 ∧
    (0x7FFFFFFFFFFFFFFE : Word).toNat = 2 ^ 63 - 2 ∧ (0x7FFFFFFFFFFFFFFF : Word).toNat = 2 ^ 63 - 1 := by
  decide

/-- Row E17: size 64. -/
theorem witness_ExpGolombWritesValueAndSize :
    (1 : Word).toInt = (1 : Nat) ∧ 2 ^ 32 ≤ (0x1FFFFFFFD : Word).toNat + 2 ^ 1 ∧
    (0x1FFFFFFFD : Word).toNat + 2 ^ 1 < 2 ^ (32 + 1) ∧ 64 + 1 + 1 = 2 * (32 + 1) ∧ 64 ≤ 64 := by decide

/-- Rows E27 (k = 64), E25 (k = 63, size 64) and E26 (k = 63, size 66). -/
theorem witness_ExpGolombOverflowsPastTheWidth :
    ((64 : Word).toInt = (64 : Nat) ∧ 64 ≤ 64) ∧ ((63 : Word).toInt = (63 : Nat) ∧ 63 < 64) ∧
    (2 ^ 63 ≤ (0x7FFFFFFFFFFFFFFF : Word).toNat + 2 ^ 63 ∧
      (0x7FFFFFFFFFFFFFFF : Word).toNat + 2 ^ 63 < 2 ^ (63 + 1) ∧ 64 + 63 + 1 = 2 * (63 + 1) ∧ 64 ≤ 64) ∧
    (2 ^ 64 ≤ (0x8000000000000000 : Word).toNat + 2 ^ 63 ∧
      (0x8000000000000000 : Word).toNat + 2 ^ 63 < 2 ^ (64 + 1) ∧ 66 + 63 + 1 = 2 * (64 + 1) ∧
      64 < 66) := by decide

theorem witness_ExpGolombRejectsNegativeOrder :
    (0xFFFFFFFFFFFFFFFF : Word).toInt < 0 ∧ (0x8000000000000000 : Word).toInt < 0 ∧
    0 ≤ (0 : Word).toInt := by decide

theorem witness_ExpGolombLengthAndSizeBounds :
    65 = bitlen (2 ^ 64 - 1 + 2 ^ 63) ∧ 63 < 64 ∧ 2 ^ 64 - 1 < 2 ^ 64 := by decide

/-- Row E15. -/
theorem witness_ExpGolombStreamIsZerosThenValue :
    ((1 : Word).toInt = (1 : Nat) ∧ 2 ^ 2 ≤ (2 : Word).toNat + 2 ^ 1 ∧ (2 : Word).toNat + 2 ^ 1 < 2 ^ (2 + 1)) ∧
    ∃ t, exec (.eg 2 1) State.reset = .next t ∧ t.status = 0b00#2 := ⟨by decide, _, rfl, rfl⟩

theorem witness_ExpGolombLargestDataOfAnOrder :
    (63 : Word).toInt = (63 : Nat) ∧ 63 ≤ 63 ∧ (0 : Word).toInt = (0 : Nat) ∧ 0 ≤ 63 := by decide

theorem witness_ExpGolombRoundTripsThroughTheStream :
    (1 : Word).toInt = (1 : Nat) ∧ (2 : Word).toNat ≤ (5 : Word).toNat ∧
    (∃ t, exec (.eg 2 1) State.reset = .next t ∧ t.status = 0b00#2 ∧ t.codeWord <+: t.codeWord) ∧
    ∃ t, exec (.eg 5 1) State.reset = .next t ∧ t.status = 0b00#2 :=
  ⟨by decide, by decide, ⟨_, rfl, rfl, List.prefix_rfl⟩, _, rfl, rfl⟩

/-- Rows M1, M2, M7 and M8. -/
theorem witness_MapNormalWritesTheMappedValue :
    (0x8000000000000000 : Word).toInt = -2 ^ 63 ∧
    (-2 ^ 63 < (0x8000000000000001 : Word).toInt ∧
      ((2 ^ 64 - 2 : Nat) : Int) = -2 * (0x8000000000000001 : Word).toInt ∧
      ¬ 0 < (0x8000000000000001 : Word).toInt) ∧
    (((0 : Nat) : Int) = -2 * (0 : Word).toInt ∧ ¬ 0 < (0 : Word).toInt) ∧
    (¬ (1 : Word).toInt ≤ 0 ∧ ((1 : Nat) : Int) = 2 * (1 : Word).toInt - 1) := by decide

theorem witness_MapRegularWritesTheMappedValue :
    (((0 : Nat) : Int) = 2 * (0 : Word).toInt ∧ ¬ (0 : Word).toInt < 0) ∧
    (¬ 0 ≤ (0x8000000000000000 : Word).toInt ∧
      ((2 ^ 64 - 1 : Nat) : Int) = -2 * (0x8000000000000000 : Word).toInt - 1) := by decide

theorem witness_MapSpecialWritesTheMappedValue :
    (((1 : Nat) : Int) = 2 * (0 : Word).toInt + 1 ∧ ¬ (0 : Word).toInt < 0) ∧
    (¬ 0 ≤ (0xFFFFFFFFFFFFFFFF : Word).toInt ∧
      ((0 : Nat) : Int) = -2 * ((0xFFFFFFFFFFFFFFFF : Word).toInt + 1)) := by decide

theorem witness_MapCommandsIgnoreOperandB :
    (showing (Ports.present (encode (.mapn 1 0))) []).ports.cmdOp = 0b010#3 ∧
    (showing (Ports.present (encode (.mapr 1 0))) []).ports.cmdOp = 0b011#3 ∧
    (showing (Ports.present (encode (.maps 1 0))) []).ports.cmdOp = 0b100#3 ∧
    (showing (Ports.present (encode (.maps 1 0))) []).ports.rst = false ∧
    (showing (Ports.present (encode (.maps 1 0))) []).ports.cmdValid = true := by decide

theorem witness_MappingsAreBijections :
    (0xFFFFFFFFFFFFFFFE : Word).toNat ≤ 2 ^ 64 - 2 ∧ (0xFFFFFFFFFFFFFFFF : Word).toNat = 2 ^ 64 - 1 := by
  decide

theorem witness_MappingsAreTheDatapathIdentities :
    (0x8000000000000001 : Word).toInt ≠ -2 ^ 63 := by decide

theorem witness_MappingsCoverASymmetricRange :
    mapNormal (-4) = mapNormal (-4) ∧ mapRegular (-4) = mapRegular (-4) ∧
    mapSpecial (-4) = mapSpecial (-4) := ⟨rfl, rfl, rfl⟩

theorem witness_MappingsDifferPairwise :
    (1 : Word) ≠ 0 ∧ ∃ t, exec (.mapn 1 0) State.reset = .next t ∧ t.status = 0b00#2 :=
  ⟨by decide, _, rfl, rfl⟩

theorem witness_SignedSequencesMapThenEncode :
    ((2 ^ 64 : Nat) : Int) = mapValue .n (0x8000000000000000 : Word).toInt ∧
    (0x8000000000000000 : Word).toInt = -2 ^ 63 ∧
    ((4 : Nat) : Int) = mapValue .n (0xFFFFFFFFFFFFFFFE : Word).toInt ∧
    ¬ (MapName.n = .n ∧ (0xFFFFFFFFFFFFFFFE : Word).toInt = -2 ^ 63) := by decide

theorem witness_SignedSequencesRoundTrip :
    (3 : Word).toInt = (3 : Nat) ∧
    ∃ t, signedSequence .gr .n 0xFFFFFFFFFFFFFFFE 3 State.reset = .next t ∧ t.status = 0b00#2 :=
  ⟨by decide, _, rfl, rfl⟩

/-- The ends of each range, and for each refusal the values next to them. -/
theorem witness_AssemblerWritesOperandsAsRead :
    ((0 : Int) ≤ 2 ^ 64 - 1 ∧ (2 ^ 64 - 1 : Int) < 2 ^ 64) ∧
    ((-2 ^ 63 : Int) ≤ -2 ^ 63 ∧ (-2 ^ 63 : Int) < 2 ^ 63) ∧
    ((-2 ^ 63 : Int) ≤ 2 ^ 63 - 1 ∧ (2 ^ 63 - 1 : Int) < 2 ^ 63) ∧ ((-2 ^ 63 : Int) < 2 ^ 64) ∧
    (2 ^ 64 - 1 : Nat) < 2 ^ 64 ∧ (2 ^ 64 : Nat) ≤ 2 ^ 64 ∧
    (-1 : Int) < 0 ∧ (2 ^ 64 : Int) ≤ 2 ^ 64 ∧ (2 ^ 63 : Int) ≤ 2 ^ 63 ∧ (-2 ^ 63 - 1 : Int) < -2 ^ 63 ∧
    (7 < 8 ∧ 2 ≤ 4 ∧ 4 ≤ 4 ∧ 5 ≤ 5 ∧ 8 ≤ 8) := by decide

theorem witness_InstancesRunIndependently : [State.reset, showing Ports.idle []][1]? = some (showing Ports.idle []) :=
  rfl

end Sys2Proof.Tests
end

/-! ## 00_scope.md R11: bitlen, clz and floor_log2

`bitlen_le_iff` characterises `bitlen`; the facts about `clz` and `floorLog2` follow from it. -/

namespace Sys2Proof.Machine

/-- An n-bit vector is its leading zeros and then its `bitlen` bits. -/
theorem clz_add_bitlen {n x : Nat} (h : x < 2 ^ n) : clz n x + bitlen x = n :=
  Nat.sub_add_cancel ((bitlen_le_iff x n).2 h)

/-- Each of the top `clz_n(x)` bits of x is 0: x is below the weight of that bit. -/
theorem testBit_eq_false_of_lt_clz {n x j : Nat} (h : j < clz n x) : x.testBit (n - 1 - j) = false := by
  have len_le : bitlen x ≤ n - 1 - j := by unfold clz at h; omega
  exact Nat.testBit_lt_two_pow ((bitlen_le_iff x _).1 len_le)

/-- The leading one of an m below `2^w` stands just below its leading zeros. -/
theorem floorLog2_eq_sub_clz {w m : Nat} (h : m < 2 ^ w) : floorLog2 m = w - 1 - clz w m := by
  have whole : clz w m + bitlen m = w := clz_add_bitlen h
  unfold floorLog2
  omega

/-- Settles O24, clause by clause: `bitlen_le_iff` read from right to left, the two facts about
`clz`, the bounds of `floorLog2`, and its value by `clz`. -/
theorem bitLengthIsTheSmallestFit : Obligations.BitLengthIsTheSmallestFit :=
  ⟨fun x len => (bitlen_le_iff x len).symm,
    fun _ _ h => ⟨clz_add_bitlen h, fun _ hj => testBit_eq_false_of_lt_clz hj⟩,
    fun _ h => floorLog2_bounds h,
    fun _ _ _ h => floorLog2_eq_sub_clz h⟩

end Sys2Proof.Machine

/-! ## 10_state.md R25 and R31: what an accepting edge shows

`step_cases` says what an edge can do: only a commit sets RSP_VALID. The outcome that an accepting edge
commits is a function of the bundle on the ports, and a commit reads no register. -/

namespace Sys2Proof.Machine

/-- What an accepting edge leaves, from its next state. -/
theorem step_accept_next {s t : State} (hr : s.ports.rst = false) (hv : s.ports.cmdValid = true)
    (h : step s = .next t) : t = s.takeEdge.commit (resultOf (decode s.ports.bundle)) :=
  exec_next (step_accept hr hv ▸ h)

/-- The bundle on the ports is made of OP, A and B alone. -/
theorem bundle_congr {W : Nat} {p p' : Ports W} (hop : p.cmdOp = p'.cmdOp) (ha : p.cmdA = p'.cmdA)
    (hb : p.cmdB = p'.cmdB) : p.bundle = p'.bundle := by
  unfold Ports.bundle
  rw [hop, ha, hb]

/-- Settles O11, by the three kinds of edge. -/
theorem rspValidMarksAcceptingEdges : Obligations.RspValidMarksAcceptingEdges := by
  refine ⟨rfl, fun s t h => ?_⟩
  obtain ⟨hr, rfl⟩ | ⟨hr, hv, rfl⟩ | ⟨hr, hv, rfl⟩ := step_cases h
  · simp [hr]
  · simp [hr, hv]
  · simp [hv]

/-- Settles O14: both edges commit the outcome of one and the same bundle. -/
theorem equalCommandsWriteEqualResults : Obligations.EqualCommandsWriteEqualResults := by
  intro s s' t t' hr hr' hv hv' hop ha hb h h'
  obtain rfl := step_accept_next hr hv h
  obtain rfl := step_accept_next hr' hv' h'
  rw [bundle_congr hop ha hb]
  exact ⟨commit_sameResult _ _ _, by simp⟩

end Sys2Proof.Machine

/-! ## 10_state.md R28 and R29: code words and SIZE

GR and EG give a code word at every width, and the map commands give size 0. The registers hold a code
word exactly, so SIZE is 0 only where the exact size is. -/

namespace Sys2Proof

/-- GR and EG, the commands that write a code word (10_state.md R27). -/
def Instr.IsEncoder (i : Instr) : Prop := ∃ a b, i = .gr a b ∨ i = .eg a b

/-- The map commands, which write a mapped value (10_state.md R30). -/
def Instr.IsMap (i : Instr) : Prop := ∃ a b, i = .mapn a b ∨ i = .mapr a b ∨ i = .maps a b

end Sys2Proof

namespace Sys2Proof.Machine

/-- An exact result that is a code word of a block of width w: at most w bits, and its one bits all
below `size` (10_state.md R27, R28, R29). -/
def Result.IsCodeWord (w : Nat) (v : Result) : Prop :=
  1 ≤ v.size ∧ v.size ≤ w ∧ 0 < v.value ∧ v.value < 2 ^ v.size

/-- A GR that succeeds gives a code word: the bits `2^rbits + rcode` end below `rbits + 1`, and
`size = q + 1 + rbits` (40_golomb.md R92). -/
theorem golomb_ok_isCodeWord {w data : Nat} {m : Int} {v : Result}
    (h : golomb w .zerosThenOne data m = .ok v) : v.IsCodeWord w := by
  by_cases hm : m ≤ 0
  · rw [golomb_nonPositive hm] at h; cases h
  lift m to Nat using by omega
  obtain ⟨e, q, r, lo, hi, hd, hr⟩ := golomb_parts data (m := m) (by omega)
  obtain ⟨hcode, heq⟩ := golomb_eq (w := w) lo hi hd hr rfl rfl
  generalize (if r < 2 ^ (e + 1) - m then e else e + 1) = rbits at hcode heq
  rw [heq] at h
  split at h
  · cases h
  next hsize =>
    cases h
    have htop : 2 ^ (rbits + 1) ≤ 2 ^ (q + 1 + rbits) := Nat.pow_le_pow_right (by decide) (by omega)
    rw [Nat.pow_succ] at htop
    exact ⟨by simp only; omega, Nat.not_lt.1 hsize, by simp only; omega, by simp only; omega⟩

/-- An EG that succeeds gives a code word: value ends below `len + 1`, and `len + 1 <= size` since
`k <= len` (41_expgolomb.md R117, R118). -/
theorem expGolomb_ok_isCodeWord {w data : Nat} {k : Int} {v : Result}
    (h : expGolomb w data k = .ok v) : v.IsCodeWord w := by
  by_cases hneg : k < 0
  · rw [expGolomb_negative hneg] at h; cases h
  lift k to Nat using by omega
  by_cases hlarge : w ≤ k
  · rw [expGolomb_large hlarge] at h; cases h
  obtain ⟨len, size, lo, hi, hs, hk⟩ := expGolomb_parts data k
  rw [expGolomb_eq (by omega) lo hi hs] at h
  split at h
  · cases h
  next hsize =>
    cases h
    have hpos : 0 < 2 ^ k := Nat.two_pow_pos k
    have htop : 2 ^ (len + 1) ≤ 2 ^ size := Nat.pow_le_pow_right (by decide) (by omega)
    exact ⟨by simp only; omega, Nat.not_lt.1 hsize, by simp only; omega, by simp only; omega⟩

/-- A MAPN that succeeds gives its mapped value (42_signmap.md R130). -/
theorem mapnResult_ok_eq {w : Nat} {val : Int} {v : Result} (h : mapnResult w val = .ok v) :
    v = mapped (mapNormal val) := by
  unfold mapnResult at h
  split at h
  · cases h
  · exact (Except.ok.inj h).symm

/-- A command that succeeds is an encoder or a map command, and not both: the reserved ones never
succeed. -/
theorem isEncoder_iff_not_isMap {i : Instr} {v : Result} (h : resultOf i = .ok v) :
    i.IsEncoder ↔ ¬ i.IsMap := by
  cases i with
  | gr | eg | mapn | mapr | maps => simp [Instr.IsEncoder, Instr.IsMap]
  | reserved101 | reserved110 | reserved111 => cases h

/-- An encoder that succeeds gives a code word (10_state.md R28, R29). -/
theorem resultOf_isCodeWord {i : Instr} {v : Result} (hi : i.IsEncoder) (h : resultOf i = .ok v) :
    v.IsCodeWord Config.W := by
  obtain ⟨a, b, rfl | rfl⟩ := hi
  · exact golomb_ok_isCodeWord h
  · exact expGolomb_ok_isCodeWord h

/-- A map command that succeeds gives size 0 (42_signmap.md R133). -/
theorem resultOf_size_of_isMap {i : Instr} {v : Result} (hi : i.IsMap) (h : resultOf i = .ok v) :
    v.size = 0 := by
  obtain ⟨a, b, rfl | rfl | rfl⟩ := hi
  · rw [mapnResult_ok_eq h]; rfl
  · cases h; rfl
  · cases h; rfl

/-- The registers hold a code word exactly: neither RES nor SIZE is cut. -/
theorem toNat_commit_codeWord {W : Nat} {v : Result} (hv : v.IsCodeWord W) (s : State.Block W) :
    (s.commit (.ok v)).res.toNat = v.value ∧ (s.commit (.ok v)).size.toNat = v.size := by
  obtain ⟨-, hW, -, hvalue⟩ := hv
  exact ⟨toNat_zextW (hvalue.trans_le (Nat.pow_le_pow_right (by decide) hW)), toNat_sizeWord hW⟩

/-- SIZE is 0 after a success exactly if the command is a map command (10_state.md R29). -/
theorem commit_ok_size_eq_zero_iff {i : Instr} {v : Result} (h : resultOf i = .ok v) (s : State) :
    (s.commit (.ok v)).size = 0#_ ↔ i.IsMap := by
  by_cases hmap : i.IsMap
  · refine iff_of_true ?_ hmap
    rw [commit_ok, writeResult_size, resultOf_size_of_isMap hmap h]
  · have hv := resultOf_isCodeWord ((isEncoder_iff_not_isMap h).2 hmap) h
    obtain ⟨-, hsize⟩ := toNat_commit_codeWord hv s
    refine iff_of_false (fun hzero => ?_) hmap
    rw [hzero] at hsize
    exact Nat.ne_of_lt hv.1 hsize

/-- A word below `2^n` has no one bit at position n or above. -/
theorem getLsbD_eq_false_of_toNat_lt {W n j : Nat} {x : Word W} (h : x.toNat < 2 ^ n) (hj : n ≤ j) :
    x.getLsbD j = false :=
  Nat.testBit_lt_two_pow (h.trans_le (Nat.pow_le_pow_right (by decide) hj))

/-- Settles O23, by the two ends of a command. An error writes SIZE 0 and a STATUS other than OK; after
a success SIZE is 0 for a map command alone, and an encoder leaves a code word. -/
theorem sizeZeroIsNoCodeWord : Obligations.SizeZeroIsNoCodeWord := by
  refine ⟨rfl, fun i s t h => ?_⟩
  obtain rfl := exec_next h
  cases hr : resultOf i with
  | error e =>
    have hst : (s.commit (.error e)).status ≠ 0b00#2 := error_status_ne_ok e
    exact ⟨iff_of_true rfl (.inl hst), fun _ hok => absurd hok hst⟩
  | ok v =>
    have hst : (s.commit (.ok v)).status = 0b00#2 := rfl
    refine ⟨(commit_ok_size_eq_zero_iff hr s).trans (or_iff_right (not_not_intro hst)).symm,
      fun hencoder _ => ?_⟩
    have hv := resultOf_isCodeWord hencoder hr
    obtain ⟨hres, hsize⟩ := toNat_commit_codeWord hv s
    obtain ⟨hpos, -, -, hlt⟩ := hv
    rw [← hres, ← hsize] at hlt
    exact ⟨hsize ▸ hpos, hlt, fun j hj => getLsbD_eq_false_of_toNat_lt hlt hj⟩

end Sys2Proof.Machine

/-! ## 20_memory.md R41 and R42: the stream of a code word

`bitstring` gives the stream bit by bit. That it determines the code word is `readBits_of_lt`, the reader
that inverts it on a code that fits its size. -/

namespace Sys2Proof.Machine

/-- The bits of the stream: bit i is the code's bit `size - 1 - i` (20_memory.md R42). -/
theorem getElem?_bitstring {code size i : Nat} (hi : i < size) :
    (bitstring code size)[i]? = some (code.testBit (size - 1 - i)) := by
  rw [bitstring, List.getElem?_map, List.getElem?_range hi, Option.map_some]

/-- No bit at position `size` or above is read (20_memory.md R42). -/
theorem bitstring_mod_two_pow (code size : Nat) :
    bitstring (code % 2 ^ size) size = bitstring code size :=
  bitstring_congr fun i hi => by simp [Nat.testBit_mod_two_pow, hi]

/-- A stream determines its code word: its length is the size, and reading it back gives the code. -/
theorem bitstring_inj {code code' size size' : Nat} (hcode : code < 2 ^ size)
    (hcode' : code' < 2 ^ size') (h : bitstring code size = bitstring code' size') :
    code = code' ∧ size = size' := by
  obtain rfl : size = size' := by simpa using congrArg List.length h
  have hread := readBits_of_lt hcode []
  rw [h, readBits_of_lt hcode' []] at hread
  exact ⟨(Prod.mk.inj (Option.some.inj hread)).1.symm, rfl⟩

@[simp] theorem length_codeWord {W : Nat} (s : State.Block W) : s.codeWord.length = s.size.toNat :=
  length_bitstring _ _

/-- Bit i of the stream is `RES[SIZE-1-i]` (20_memory.md R41). -/
theorem getElem?_codeWord {W i : Nat} {s : State.Block W} (hi : i < s.size.toNat) :
    s.codeWord[i]? = some (s.res.getLsbD (s.size.toNat - 1 - i)) :=
  getElem?_bitstring hi

/-- Two code words with no one bit at position SIZE or above are equal if their streams are. -/
theorem codeWord_inj {W : Nat} {s t : State.Block W} (hs : s.res.toNat < 2 ^ s.size.toNat)
    (ht : t.res.toNat < 2 ^ t.size.toNat) (h : s.codeWord = t.codeWord) :
    s.res = t.res ∧ s.size = t.size := by
  obtain ⟨hres, hsize⟩ := bitstring_inj hs ht h
  exact ⟨BitVec.eq_of_toNat_eq hres, BitVec.eq_of_toNat_eq hsize⟩

/-- Settles O25, by the bits of `bitstring`, and by reading a code word back from its stream. -/
theorem codeWordIsReadMsbFirst : Obligations.CodeWordIsReadMsbFirst :=
  ⟨fun s => ⟨length_codeWord s, fun _ hi => getElem?_codeWord hi⟩,
    fun code size => (bitstring_mod_two_pow code size).symm,
    fun _ _ hs ht h => codeWord_inj hs ht h⟩

end Sys2Proof.Machine

/-! ## 30_encoding.md R60 and R61: the bundle's number and the OP map

`toNat_make_normative` numbers the bundle `{OP, B, A}`, so a bundle with that number is made of these
fields, and `decode_make` leaves the OP map alone. -/

namespace Sys2Proof

/-- A bundle is made of the fields that its number spells (R60). -/
theorem eq_make_of_toNat {c : Bundle} {op : OpWord} {b a : Word}
    (h : c.toNat = op.toNat * 2 ^ 128 + b.toNat * 2 ^ 64 + a.toNat) : c = Bundle.make op b a :=
  BitVec.eq_of_toNat_eq (h.trans (toNat_make_normative op b a).symm)

/-- Decoding such a bundle is the OP map on its fields (R60, R62). -/
theorem decode_of_toNat {c : Bundle} {op : OpWord} {b a : Word}
    (h : c.toNat = op.toNat * 2 ^ 128 + b.toNat * 2 ^ 64 + a.toNat) : decode c = commandOf op a b := by
  rw [eq_make_of_toNat h, decode_make]

/-- Settles O2: the number gives the bundle's fields, and the OP map has one row for each OP. -/
theorem opMapSelectsTheCommand : Obligations.OpMapSelectsTheCommand := by
  intro op a b c h
  have hdecode : decode c = commandOf (BitVec.ofFin op) a b := decode_of_toNat h
  rw [hdecode]
  -- The rows speak of OP alone; `match` must not take the number of the bundle along.
  clear h hdecode
  match op with
  | 0 | 1 | 2 | 3 | 4 | 5 | 6 | 7 => rfl

end Sys2Proof

/-! ## 40_golomb.md R84 and R88: the truncated-binary coder and the internal widths

`truncatedBinary` has two branches, one on each side of the threshold; the bounds follow from
`2^b <= m < 2^(b+1)`. -/

namespace Sys2Proof.Machine

theorem truncatedBinary_short {b t r : Nat} (h : r < t) : truncatedBinary b t r = (r, b) := if_pos h

theorem truncatedBinary_long {b t r : Nat} (h : t ≤ r) : truncatedBinary b t r = (r + t, b + 1) :=
  if_neg (Nat.not_lt.2 h)

/-- Settles O27, by the two branches of the coder. -/
theorem truncatedBinaryFitsItsBits : Obligations.TruncatedBinaryFitsItsBits := by
  intro m b r t rcode rbits lo hi hr ht h
  have hpow : 2 ^ (b + 1) = 2 * 2 ^ b := Nat.pow_succ'
  refine ⟨by omega, by omega, fun hshort => ?_, fun hlong => ?_⟩
  · rw [truncatedBinary_short hshort] at h
    cases h
    exact ⟨rfl, rfl, by omega⟩
  · rw [truncatedBinary_long hlong] at h
    cases h
    exact ⟨rfl, rfl, by omega, by omega⟩

/-- The bits of the remainder code: b or b + 1, and the code fits b + 1 bits. -/
theorem truncatedBinary_bounds {m b r rcode rbits : Nat} (lo : 2 ^ b ≤ m) (hi : m < 2 ^ (b + 1))
    (hr : r < m) (h : truncatedBinary b (2 ^ (b + 1) - m) r = (rcode, rbits)) :
    rcode < 2 ^ (b + 1) ∧ rbits ≤ b + 1 := by
  obtain ⟨-, -, hshort, hlong⟩ := truncatedBinaryFitsItsBits m b r _ rcode rbits lo hi hr rfl h
  have hpow : 2 ^ (b + 1) = 2 * 2 ^ b := Nat.pow_succ'
  omega

/-- Settles O28: m below `2^(w-1)` puts its leading one at w - 2 or below, so that t and rcode, which
are below `2^(b+1)`, are below `2^(w-1)`; the size adds at most w to a quotient below `2^w`. -/
theorem golombNeedsOneBitMoreThanTheWidth : Obligations.GolombNeedsOneBitMoreThanTheWidth := by
  intro w data m rcode rbits hdata hm hmw h
  obtain ⟨lo, hi⟩ := floorLog2_bounds hm
  generalize floorLog2 m = e at h lo hi ⊢
  have he : e < w - 1 := (Nat.pow_lt_pow_iff_right (by decide : 1 < 2)).1 (lo.trans_lt hmw)
  have hpow : 2 ^ (e + 1) ≤ 2 ^ (w - 1) := Nat.pow_le_pow_right (by decide) he
  obtain ⟨hcode, hbits⟩ := truncatedBinary_bounds lo hi (Nat.mod_lt data hm) h
  have hq : data / m ≤ data := Nat.div_le_self data m
  have hw : w < 2 ^ w := Nat.lt_two_pow_self
  have hsucc : 2 ^ (w + 1) = 2 * 2 ^ w := Nat.pow_succ'
  exact ⟨hpow, by omega, by omega, by omega, by omega⟩

end Sys2Proof.Machine

/-! ## 40_golomb.md R81, R86, R87, R90 and R91: the next state of GR

`golomb_eq` gives the exact result from the parts `2^e <= m < 2^(e+1)` and `data = q*m + r`; the
command writes it where `q + 1 + rbits <= 64`, and the error otherwise. -/

namespace Sys2Proof.Machine

section Parts

variable {a b : Word} {m e q r rbits rcode : Nat} (s : State)

/-- GR with a size that fits writes the code word (40_golomb.md R86). -/
theorem exec_gr_ok (hb : b.toInt = m) (lo : 2 ^ e ≤ m) (hi : m < 2 ^ (e + 1)) (hd : a.toNat = q * m + r)
    (hr : r < m) (hrb : rbits = if r < 2 ^ (e + 1) - m then e else e + 1)
    (hrc : rcode = if r < 2 ^ (e + 1) - m then r else r + (2 ^ (e + 1) - m))
    (hfit : q + 1 + rbits ≤ 64) :
    2 ^ rbits ||| rcode = 2 ^ rbits + rcode ∧
    exec (.gr a b) s = .next { s with
      res := BitVec.ofNat 64 (2 ^ rbits + rcode), size := BitVec.ofNat Config.SIZE_W (q + 1 + rbits)
      status := 0b00#2, rspValid := true } := by
  obtain ⟨hcode, hg⟩ := golomb_eq (w := 64) lo hi hd hr hrb hrc
  rw [if_neg (Nat.not_lt.2 hfit), ← resultOf_gr hb] at hg
  exact ⟨two_pow_or_eq_add hcode, exec_of_ok hg s⟩

/-- GR with a size past the width performs the error write of Overflow (40_golomb.md R87). -/
theorem exec_gr_overflow (hb : b.toInt = m) (lo : 2 ^ e ≤ m) (hi : m < 2 ^ (e + 1))
    (hd : a.toNat = q * m + r) (hr : r < m) (hrb : rbits = if r < 2 ^ (e + 1) - m then e else e + 1)
    (hover : 64 < q + 1 + rbits) :
    exec (.gr a b) s = .next { s with res := 0#64, size := 0#_, status := 0b10#2, rspValid := true } := by
  obtain ⟨-, hg⟩ := golomb_eq (w := 64) lo hi hd hr hrb rfl
  rw [if_pos hover, ← resultOf_gr hb] at hg
  exact exec_of_error hg s

end Parts

/-- Settles O29: `exec_gr_ok` in each branch of the coder. -/
theorem golombWritesPrefixAndRemainder : Obligations.GolombWritesPrefixAndRemainder := by
  intro a b s m e q r hb lo hi hd hr
  refine ⟨fun hshort hfit => ?_, fun hlong hfit => ?_⟩
  · exact exec_gr_ok s hb lo hi hd hr (if_pos hshort).symm (if_pos hshort).symm hfit
  · have hnot := Nat.not_lt.2 hlong
    exact exec_gr_ok s hb lo hi hd hr (if_neg hnot).symm (if_neg hnot).symm hfit

/-- Settles O30: m has at most 63 bits, so `63 - rbits` does not wrap; the two ends are
`exec_gr_overflow` and `exec_gr_ok`, whose code lies below `2^(rbits+1)`. -/
theorem golombOverflowsPastTheWidth : Obligations.GolombOverflowsPastTheWidth := by
  intro a b s m e q r rbits hb lo hi hd hr hrb
  have he : e < 63 := modulus_log2_lt hb lo
  have hbits : rbits ≤ 63 := by rw [hrb]; split <;> omega
  refine ⟨hbits, by omega, fun hover => exec_gr_overflow s hb lo hi hd hr hrb hover, fun hfit => ?_⟩
  have hexec := (exec_gr_ok s hb lo hi hd hr hrb rfl hfit).2
  obtain ⟨-, hcode, hres, -⟩ := gr_success hb hexec rfl lo hi hd hr hrb rfl
  have htop : 2 ^ (rbits + 1) ≤ 2 ^ (q + 1 + rbits) := Nat.pow_le_pow_right (by decide) (by omega)
  rw [Nat.pow_succ] at htop
  exact ⟨_, hexec, rfl, by omega, Nat.pow_le_pow_right (by decide) hfit⟩

/-- Settles O31: the parameter check comes first, and a GR that passes it has parts, with which it ends
in a code word or in Overflow. -/
theorem golombRejectsNonPositiveModulus : Obligations.GolombRejectsNonPositiveModulus := by
  intro a b s
  refine ⟨fun hneg => exec_of_error (i := .gr a b) (golomb_nonPositive hneg) s, fun hpos => ?_⟩
  obtain ⟨m, hb⟩ := Int.eq_ofNat_of_zero_le hpos.le
  obtain ⟨e, q, r, lo, hi, hd, hr⟩ := golomb_parts a.toNat (m := m) (by omega)
  by_cases hfit : q + 1 + (if r < 2 ^ (e + 1) - m then e else e + 1) ≤ 64
  · exact ⟨_, (exec_gr_ok s hb lo hi hd hr rfl rfl hfit).2, by simp⟩
  · exact ⟨_, exec_gr_overflow s hb lo hi hd hr rfl (Nat.not_le.1 hfit), by simp⟩

/-- Every remainder of a power of two lies below the threshold `2^(e+1) - 2^e` (40_golomb.md R90). -/
theorem lt_threshold_of_two_pow {e r : Nat} (hr : r < 2 ^ e) : r < 2 ^ (e + 1) - 2 ^ e := by
  rw [Nat.pow_succ]; omega

/-- Settles O32: the long branch is never taken. -/
theorem golombByPowerOfTwoIsRice : Obligations.GolombByPowerOfTwoIsRice := by
  intro a b s e hb hfit
  have hr : a.toNat % 2 ^ e < 2 ^ e := Nat.mod_lt _ (Nat.two_pow_pos e)
  have hshort := lt_threshold_of_two_pow hr
  exact (exec_gr_ok s (by exact_mod_cast hb) le_rfl (Nat.pow_lt_pow_succ (by decide))
    (Nat.div_add_mod' a.toNat (2 ^ e)).symm hr (if_pos hshort).symm (if_pos hshort).symm hfit).2

/-- Settles O33: the quotient by `1 = 2^0` is the data, and the remainder has no bits. -/
theorem golombByOneIsUnary : Obligations.GolombByOneIsUnary := by
  intro a b s hb
  have hd : a.toNat = a.toNat * 1 + 0 := by omega
  refine ⟨fun hfit => ?_, fun hover => ?_⟩
  · exact (exec_gr_ok (e := 0) (rbits := 0) (rcode := 0) s hb le_rfl (by decide) hd (by decide) rfl rfl
      (by omega)).2
  · exact exec_gr_overflow (e := 0) (rbits := 0) s hb le_rfl (by decide) hd (by decide) rfl (by omega)

end Sys2Proof.Machine

/-! ## 40_golomb.md R89, R92 and R94: the code word and its stream

`gr_success` gives RES and SIZE as numbers: `2^rbits + rcode`, whose leading one is at position rbits,
and `q + 1 + rbits`, which puts q zeros above it. -/

namespace Sys2Proof.Machine

section Success

variable {a b : Word} {s t : State} {m e q r rbits rcode : Nat}

/-- The stream of a GR code word (40_golomb.md R89). -/
theorem gr_codeWord (hb : b.toInt = m) (h : exec (.gr a b) s = .next t) (ht : t.status = 0b00#2)
    (lo : 2 ^ e ≤ m) (hi : m < 2 ^ (e + 1)) (hd : a.toNat = q * m + r) (hr : r < m)
    (hrb : rbits = if r < 2 ^ (e + 1) - m then e else e + 1)
    (hrc : rcode = if r < 2 ^ (e + 1) - m then r else r + (2 ^ (e + 1) - m)) :
    t.codeWord = List.replicate q false ++ true :: bitstring rcode rbits ∧
    t.codeWord.length = q + 1 + rbits := by
  obtain ⟨-, hcode, hres, hsize⟩ := gr_success hb h ht lo hi hd hr hrb hrc
  have hlead : 2 ^ rbits + rcode < 2 ^ (rbits + 1) := by rw [Nat.pow_succ]; omega
  have hstream : t.codeWord = bitstring (2 ^ rbits + rcode) (q + (rbits + 1)) := by
    rw [← hres, show q + (rbits + 1) = t.size.toNat by omega]; rfl
  exact ⟨by rw [hstream, bitstring_pad hlead, bitstring_leading_one hcode],
    (length_codeWord t).trans hsize⟩

/-- The remainder is read back from its code, in either branch of the coder (40_golomb.md R94). -/
theorem readRemainder_code (hi : m < 2 ^ (e + 1)) (hr : r < m)
    (hrb : rbits = if r < 2 ^ (e + 1) - m then e else e + 1)
    (hrc : rcode = if r < 2 ^ (e + 1) - m then r else r + (2 ^ (e + 1) - m)) (rest : List Bool) :
    readRemainder e (2 ^ (e + 1) - m) (bitstring rcode rbits ++ rest) = some (r, rest) := by
  obtain ⟨hshort, hlong⟩ := remainder_code_lt hi hr
  subst hrb hrc
  by_cases ht : r < 2 ^ (e + 1) - m
  · simp only [if_pos ht]
    exact readRemainder_short ht (hshort ht) rest
  · simp only [if_neg ht]
    exact readRemainder_long (Nat.not_lt.1 ht) (hlong (Nat.not_lt.1 ht)) rest

/-- The reader on a stream of the three parts of R89: the zeros give q, the remainder code gives r
(40_golomb.md R94). -/
theorem readGolomb_parts (lo : 2 ^ e ≤ m) (hi : m < 2 ^ (e + 1)) (hr : r < m)
    (hrb : rbits = if r < 2 ^ (e + 1) - m then e else e + 1)
    (hrc : rcode = if r < 2 ^ (e + 1) - m then r else r + (2 ^ (e + 1) - m)) (rest : List Bool) :
    readGolomb m (List.replicate q false ++ true :: bitstring rcode rbits ++ rest)
      = some (q * m + r, rest) := by
  rw [List.append_assoc, List.cons_append, readGolomb, leadingZeros_replicate]
  simp only [List.tail_cons, floorLog2_eq_of_bounds lo hi, readRemainder_code hi hr hrb hrc,
    Option.map_some]

/-- A GR that succeeds has a positive modulus (40_golomb.md R81). -/
theorem modulus_pos_of_gr_ok (hb : b.toInt = m) (h : exec (.gr a b) s = .next t)
    (ht : t.status = 0b00#2) : 0 < m := by
  by_contra hzero
  rw [(golombRejectsNonPositiveModulus a b s).1 (by omega)] at h
  cases h
  exact error_status_ne_ok .invalidParameter ht

/-- After a GR that succeeds the reader answers the data, whatever follows the code word
(40_golomb.md R94). -/
theorem readGolomb_codeWord (hb : b.toInt = m) (h : exec (.gr a b) s = .next t)
    (ht : t.status = 0b00#2) (rest : List Bool) :
    readGolomb m (t.codeWord ++ rest) = some (a.toNat, rest) := by
  obtain ⟨e, q, r, lo, hi, hd, hr⟩ := golomb_parts a.toNat (modulus_pos_of_gr_ok hb h ht)
  obtain ⟨hstream, -⟩ := gr_codeWord hb h ht lo hi hd hr rfl rfl
  rw [hstream, readGolomb_parts lo hi hr rfl rfl, hd]

end Success

/-- Settles O37: the reader answers the data of the first code word on its stream with any bits behind,
so on the stream of the second, which begins with that of the first, it answers both data. -/
theorem golombRoundTripsThroughTheStream : Obligations.GolombRoundTripsThroughTheStream := by
  intro a b s t m hb h ht
  refine ⟨readGolomb_codeWord hb h ht, fun a' s' t' h' ht' hprefix => ?_⟩
  obtain ⟨rest, hrest⟩ := hprefix
  have hfirst := readGolomb_codeWord hb h ht rest
  have hsecond := readGolomb_codeWord hb h' ht' []
  rw [List.append_nil, ← hrest, hfirst] at hsecond
  exact BitVec.eq_of_toNat_eq (Prod.mk.inj (Option.some.inj hsecond)).1.symm

/-- Settles O35: `gr_codeWord` in each branch of the coder. -/
theorem golombStreamIsUnaryThenRemainder : Obligations.GolombStreamIsUnaryThenRemainder := by
  intro a b s t m e q r hb lo hi hd hr h ht
  refine ⟨fun hshort => ?_, fun hlong => ?_⟩
  · exact gr_codeWord hb h ht lo hi hd hr (if_pos hshort).symm (if_pos hshort).symm
  · have hnot := Nat.not_lt.2 hlong
    exact gr_codeWord hb h ht lo hi hd hr (if_neg hnot).symm (if_neg hnot).symm

/-- Settles O34: RES is `2^rbits` and a remainder code below it, and SIZE is at least `rbits + 1`. -/
theorem golombCodeHasItsTopBitAtTheRemainderWidth :
    Obligations.GolombCodeHasItsTopBitAtTheRemainderWidth := by
  intro a b s t m e q r rbits hb lo hi hd hr hrb h ht
  obtain ⟨hfit, hcode, hres, hsize⟩ := gr_success hb h ht lo hi hd hr hrb rfl
  have hpow : 2 ^ (rbits + 1) = 2 * 2 ^ rbits := Nat.pow_succ'
  have hlt : t.res.toNat < 2 ^ (rbits + 1) := by omega
  have htop : t.res.getLsbD rbits = true := by
    rw [BitVec.getLsbD, hres, Nat.testBit_two_pow_add_eq, Nat.testBit_lt_two_pow hcode]; rfl
  exact ⟨by omega, by omega, by omega, hlt, Nat.pow_le_pow_right (by decide) (by omega), htop,
    fun j hj => getLsbD_eq_false_of_toNat_lt hlt hj⟩

end Sys2Proof.Machine

/-! ## 40_golomb.md R93 and R95: the size as a function of the data

`golombSize` is the exact size that GR compares with the width. Its growth is that of the quotient and
of `remainderBits`, which steps once, from b to b + 1, at the threshold. -/

namespace Sys2Proof.Machine

/-- `rbits` as a function of m and r: the bit count that the coder answers (40_golomb.md R84). -/
def remainderBits (m r : Nat) : Nat :=
  (truncatedBinary (floorLog2 m) (2 ^ (floorLog2 m + 1) - m) r).2

/-- The exact size `q + 1 + rbits` (40_golomb.md R86). -/
def golombSize (m data : Nat) : Nat := data / m + 1 + remainderBits m (data % m)

theorem remainderBits_eq {m e : Nat} (lo : 2 ^ e ≤ m) (hi : m < 2 ^ (e + 1)) (r : Nat) :
    remainderBits m r = if r < 2 ^ (e + 1) - m then e else e + 1 := by
  unfold remainderBits truncatedBinary
  rw [floorLog2_eq_of_bounds lo hi]
  split <;> rfl

/-- `rbits` is b or b + 1. -/
theorem remainderBits_bounds {m : Nat} (hm : 0 < m) (r : Nat) :
    floorLog2 m ≤ remainderBits m r ∧ remainderBits m r ≤ floorLog2 m + 1 := by
  obtain ⟨lo, hi⟩ := floorLog2_bounds hm
  rw [remainderBits_eq lo hi]
  split <;> omega

theorem remainderBits_mono {m r r' : Nat} (hm : 0 < m) (h : r ≤ r') :
    remainderBits m r ≤ remainderBits m r' := by
  obtain ⟨lo, hi⟩ := floorLog2_bounds hm
  rw [remainderBits_eq lo hi, remainderBits_eq lo hi]
  split <;> split <;> omega

/-- The first remainder of a quotient is short: the threshold is at least 1. -/
theorem remainderBits_zero {m : Nat} (hm : 0 < m) : remainderBits m 0 = floorLog2 m := by
  obtain ⟨lo, hi⟩ := floorLog2_bounds hm
  rw [remainderBits_eq lo hi, if_pos (by omega)]

/-- The remainders of a power of two are all short (40_golomb.md R90). -/
theorem remainderBits_two_pow {e r : Nat} (hr : r < 2 ^ e) : remainderBits (2 ^ e) r = e := by
  rw [remainderBits_eq le_rfl (Nat.pow_lt_pow_succ (by decide)), if_pos (lt_threshold_of_two_pow hr)]

/-- The last remainder is long for any other modulus (40_golomb.md R93). -/
theorem remainderBits_last {m : Nat} (hm : 0 < m) (hpow : ¬ ∃ e, m = 2 ^ e) :
    remainderBits m (m - 1) = floorLog2 m + 1 := by
  obtain ⟨lo, hi⟩ := floorLog2_bounds hm
  have hne : m ≠ 2 ^ floorLog2 m := fun h => hpow ⟨_, h⟩
  have hsucc : 2 ^ (floorLog2 m + 1) = 2 * 2 ^ floorLog2 m := Nat.pow_succ'
  rw [remainderBits_eq lo hi, if_neg (by omega)]

/-- Within one quotient the remainder grows with the data. -/
theorem mod_le_mod_of_div_eq {m data data' : Nat} (h : data ≤ data') (hq : data / m = data' / m) :
    data % m ≤ data' % m := by
  have hdata := Nat.div_add_mod data m
  have hdata' := Nat.div_add_mod data' m
  rw [hq] at hdata
  omega

theorem golombSize_mono {m data data' : Nat} (hm : 0 < m) (h : data ≤ data') :
    golombSize m data ≤ golombSize m data' := by
  have hbits := remainderBits_bounds hm (data % m)
  have hbits' := remainderBits_bounds hm (data' % m)
  unfold golombSize
  obtain hq | hq := (Nat.div_le_div_right (c := m) h).lt_or_eq
  · omega
  · have := remainderBits_mono hm (mod_le_mod_of_div_eq h hq)
    omega

theorem golombSize_le_succ_of_div_eq {m data data' : Nat} (hm : 0 < m) (hq : data / m = data' / m) :
    golombSize m data' ≤ golombSize m data + 1 := by
  have hbits := remainderBits_bounds hm (data % m)
  have hbits' := remainderBits_bounds hm (data' % m)
  unfold golombSize
  omega

/-- From the last remainder of a quotient the next data has the next quotient and remainder 0. -/
theorem div_mod_succ_of_last {m data : Nat} (hm : 0 < m) (h : data % m = m - 1) :
    (data + 1) / m = data / m + 1 ∧ (data + 1) % m = 0 := by
  have hdata := Nat.div_add_mod' data m
  exact div_mod_of_parts (by rw [Nat.add_mul]; omega) hm

/-- Into the next quotient the size grows by one for a power of two, where both sides are short, and
stays for any other modulus, where `rbits` falls from b + 1 to b (40_golomb.md R93). -/
theorem golombSize_succ_of_last {m data : Nat} (hm : 0 < m) (h : data % m = m - 1) :
    ((∃ e, m = 2 ^ e) → golombSize m (data + 1) = golombSize m data + 1) ∧
    ((¬ ∃ e, m = 2 ^ e) → golombSize m (data + 1) = golombSize m data) := by
  obtain ⟨hq, hr⟩ := div_mod_succ_of_last hm h
  unfold golombSize
  rw [hq, hr, h]
  refine ⟨?_, fun hpow => ?_⟩
  · rintro ⟨e, rfl⟩
    rw [remainderBits_two_pow hm, remainderBits_two_pow (by omega)]
    omega
  · rw [remainderBits_zero hm, remainderBits_last hm hpow]
    omega

/-- The two ends of a GR by a positive modulus, on the two sides of the width (40_golomb.md R86,
R87). -/
theorem gr_ends {a b : Word} {s t : State} {m : Nat} (hb : b.toInt = m) (hm : 0 < m)
    (h : exec (.gr a b) s = .next t) :
    (golombSize m a.toNat ≤ 64 ∧ t.status = 0b00#2 ∧ t.size.toNat = golombSize m a.toNat) ∨
    (64 < golombSize m a.toNat ∧ t.status = 0b10#2 ∧ t.size = 0#_) := by
  obtain ⟨lo, hi⟩ := floorLog2_bounds hm
  have hd := (Nat.div_add_mod' a.toNat m).symm
  have hr := Nat.mod_lt a.toNat hm
  have hrb := remainderBits_eq lo hi (a.toNat % m)
  by_cases hfit : golombSize m a.toNat ≤ 64
  · have hexec := (exec_gr_ok s hb lo hi hd hr hrb rfl hfit).2
    have ht : t.status = 0b00#2 := by rw [hexec] at h; cases h; rfl
    exact .inl ⟨hfit, ht, (gr_success hb h ht lo hi hd hr hrb rfl).2.2.2⟩
  · have hover := Nat.not_le.1 hfit
    rw [exec_gr_overflow s hb lo hi hd hr hrb hover] at h
    cases h
    exact .inr ⟨hover, rfl, rfl⟩

/-- Settles O36: the ends of both commands by `gr_ends`, and the growth of `golombSize`. -/
theorem golombSizeIsMonotone : Obligations.GolombSizeIsMonotone := by
  intro a a' b s s' t t' m hb hm hle h h'
  have hmono := golombSize_mono hm hle
  obtain ⟨hfit, ht, hsize⟩ | ⟨hover, ht, -⟩ := gr_ends hb hm h <;>
    obtain ⟨hfit', ht', hsize'⟩ | ⟨hover', ht', hsize'⟩ := gr_ends hb hm h'
  · refine ⟨fun hst => absurd (ht.symm.trans hst) (by decide), fun _ _ => ?_⟩
    rw [hsize, hsize']
    refine ⟨hmono, golombSize_le_succ_of_div_eq hm, fun hlast hsucc => ?_⟩
    rw [hsucc]
    exact golombSize_succ_of_last hm hlast
  · exact ⟨fun _ => ⟨ht', hsize'⟩, fun _ hst => absurd (ht'.symm.trans hst) (by decide)⟩
  · omega
  · exact ⟨fun _ => ⟨ht', hsize'⟩, fun hst => absurd (ht.symm.trans hst) (by decide)⟩

/-- Whether a GR by a positive modulus succeeds is whether its exact size fits (40_golomb.md R87). -/
theorem gr_status_iff {a b : Word} {m : Nat} (hb : b.toInt = m) (hm : 0 < m) (s : State) :
    ∃ t, exec (.gr a b) s = .next t ∧ (t.status = 0b00#2 ↔ golombSize m a.toNat ≤ 64) ∧
      (t.status ≠ 0b00#2 → t.status = 0b10#2) ∧
      (golombSize m a.toNat ≤ 64 → t.size.toNat = golombSize m a.toNat) := by
  refine ⟨_, exec_eq _ s, ?_⟩
  obtain ⟨hfit, ht, hsize⟩ | ⟨hover, ht, -⟩ := gr_ends hb hm (exec_eq (.gr a b) s)
  · exact ⟨iff_of_true ht hfit, fun hne => absurd ht hne, fun _ => hsize⟩
  · exact ⟨iff_of_false (by rw [ht]; decide) (Nat.not_le.2 hover), fun _ => ht, fun hfit => by omega⟩

/-- The size fits exactly if `q <= 63 - rbits`, which does not wrap (40_golomb.md R87, R95). -/
theorem golombSize_le_iff {b : Word} {m e : Nat} (hb : b.toInt = m) (lo : 2 ^ e ≤ m)
    (hi : m < 2 ^ (e + 1)) (data : Nat) :
    golombSize m data ≤ 64 ↔
      data / m ≤ 63 - (if data % m < 2 ^ (e + 1) - m then e else e + 1) := by
  have he : e < 63 := modulus_log2_lt hb lo
  unfold golombSize
  rw [remainderBits_eq lo hi]
  split <;> omega

/-- The size by a power of two (40_golomb.md R90). -/
theorem golombSize_two_pow (e data : Nat) : golombSize (2 ^ e) data = data / 2 ^ e + 1 + e := by
  unfold golombSize
  rw [remainderBits_two_pow (Nat.mod_lt _ (Nat.two_pow_pos e))]

/-- The largest modulus, with threshold 1: the quotient 0 always fits, and the quotient 1 with
remainder 0 alone (40_golomb.md R95). -/
theorem golombSize_largest_le_iff {data : Nat} :
    golombSize (2 ^ 63 - 1) data ≤ 64 ↔ data ≤ 2 ^ 63 - 1 := by
  rw [golombSize_le_iff (b := 0x7FFFFFFFFFFFFFFF) (m := 2 ^ 63 - 1) (e := 62) rfl (by decide) (by decide)]
  split <;> omega

/-- The two largest data of the largest modulus, and their code words (40_golomb.md R95). -/
theorem gr_largest_codes {a b : Word} {s t : State} (hb : b.toInt = (2 ^ 63 - 1 : Nat))
    (h : exec (.gr a b) s = .next t) (ht : t.status = 0b00#2) :
    (a.toNat = 2 ^ 63 - 2 → t.size.toNat = 64 ∧ t.res.toNat = 2 ^ 64 - 1) ∧
    (a.toNat = 2 ^ 63 - 1 → t.size.toNat = 64 ∧ t.res.toNat = 2 ^ 62) := by
  refine ⟨fun ha => ?_, fun ha => ?_⟩
  · obtain ⟨-, -, hres, hsize⟩ := gr_success (e := 62) (q := 0) (r := 2 ^ 63 - 2) (rbits := 63)
      (rcode := 2 ^ 63 - 1) hb h ht (by decide) (by decide) (by omega) (by decide) rfl rfl
    exact ⟨hsize, hres⟩
  · obtain ⟨-, -, hres, hsize⟩ := gr_success (e := 62) (q := 1) (r := 0) (rbits := 62)
      (rcode := 0) hb h ht (by decide) (by decide) (by omega) (by decide) rfl rfl
    exact ⟨hsize, hres⟩

/-- Settles O38: GR succeeds where `golombSize` fits, and the boundary of each modulus is that of its
size. -/
theorem golombLargestDataOfAModulus : Obligations.GolombLargestDataOfAModulus := by
  refine ⟨fun a b s m e hb lo hi => ?_, fun a s => ?_, fun a s => ?_, fun a s => ?_⟩
  · have hm : 0 < m := (Nat.two_pow_pos e).trans_le lo
    obtain ⟨t, h, hok, hover, -⟩ := gr_status_iff (a := a) hb hm s
    exact ⟨t, h, hok.trans (golombSize_le_iff hb lo hi _), hover⟩
  · obtain ⟨t, h, hok, -, hsize⟩ := gr_status_iff (a := a) (b := 1) (m := 2 ^ 0) rfl (by decide) s
    rw [golombSize_two_pow] at hok hsize
    exact ⟨t, h, hok.trans (by omega), fun ha => by omega⟩
  · obtain ⟨t, h, hok, -, hsize⟩ := gr_status_iff (a := a) (b := 4) (m := 2 ^ 2) rfl (by decide) s
    rw [golombSize_two_pow] at hok hsize
    exact ⟨t, h, hok.trans (by omega), fun ha => by omega⟩
  · obtain ⟨t, h, hok, -⟩ := gr_status_iff (a := a) (b := 0x7FFFFFFFFFFFFFFF) (m := 2 ^ 63 - 1) rfl
      (by decide) s
    rw [golombSize_largest_le_iff] at hok
    exact ⟨t, h, hok, fun ha => (gr_largest_codes rfl h (hok.2 (by omega))).1 ha,
      fun ha => (gr_largest_codes rfl h (hok.2 (by omega))).2 ha⟩

end Sys2Proof.Machine

/-! ## 41_expgolomb.md R111, R112 and R114 to R117: the next state of EG

The parts of EG are the position `len` of the leading one, `2^len <= data + 2^k < 2^(len+1)`, and the
size with `size + k + 1 = 2*(len + 1)`. Since `k <= len < size`, an order past the width has a size past
the width: whether the size fits alone decides between the code word and Overflow. -/

namespace Sys2Proof.Machine

/-- The size is at least the length of value, and past the order (41_expgolomb.md R117). -/
theorem length_le_size {data k len size : Nat} (hi : data + 2 ^ k < 2 ^ (len + 1))
    (hs : size + k + 1 = 2 * (len + 1)) : len + 1 ≤ size ∧ k < size := by
  have hk := order_le_length hi
  omega

/-- EG of any order `k >= 0`, those past the width among them (41_expgolomb.md R112 to R116). -/
theorem expGolomb_eq_of_parts {w data k len size : Nat} (lo : 2 ^ len ≤ data + 2 ^ k)
    (hi : data + 2 ^ k < 2 ^ (len + 1)) (hs : size + k + 1 = 2 * (len + 1)) :
    expGolomb w data (k : Int) =
      if w < size then .error .overflow else .ok { value := data + 2 ^ k, size := size } := by
  obtain hk | hk := Nat.lt_or_ge k w
  · exact expGolomb_eq hk lo hi hs
  · obtain ⟨-, hsize⟩ := length_le_size hi hs
    rw [expGolomb_large hk, if_pos (hk.trans_lt hsize)]

section Parts

variable {a b : Word} {k len size : Nat} (s : State)

/-- EG with a size that fits writes value and the size (41_expgolomb.md R116). -/
theorem exec_eg_ok (hb : b.toInt = k) (lo : 2 ^ len ≤ a.toNat + 2 ^ k)
    (hi : a.toNat + 2 ^ k < 2 ^ (len + 1)) (hs : size + k + 1 = 2 * (len + 1)) (hfit : size ≤ 64) :
    exec (.eg a b) s = .next { s with
      res := BitVec.ofNat 64 (a.toNat + 2 ^ k), size := BitVec.ofNat Config.SIZE_W size
      status := 0b00#2, rspValid := true } := by
  have hg := expGolomb_eq_of_parts (w := 64) lo hi hs
  rw [if_neg (Nat.not_lt.2 hfit), ← resultOf_eg hb] at hg
  exact exec_of_ok hg s

/-- EG with a size past the width performs the error write of Overflow (41_expgolomb.md R115). -/
theorem exec_eg_overflow (hb : b.toInt = k) (lo : 2 ^ len ≤ a.toNat + 2 ^ k)
    (hi : a.toNat + 2 ^ k < 2 ^ (len + 1)) (hs : size + k + 1 = 2 * (len + 1)) (hover : 64 < size) :
    exec (.eg a b) s = .next { s with res := 0#64, size := 0#_, status := 0b10#2, rspValid := true } := by
  have hg := expGolomb_eq_of_parts (w := 64) lo hi hs
  rw [if_pos hover, ← resultOf_eg hb] at hg
  exact exec_of_error hg s

/-- The two ends of an EG of an order `k >= 0`, on the two sides of the width. -/
theorem eg_status (hb : b.toInt = k) (lo : 2 ^ len ≤ a.toNat + 2 ^ k)
    (hi : a.toNat + 2 ^ k < 2 ^ (len + 1)) (hs : size + k + 1 = 2 * (len + 1)) :
    ∃ t, exec (.eg a b) s = .next t ∧ (t.status = 0b00#2 ↔ size ≤ 64) ∧
      (t.status ≠ 0b00#2 → t.status = 0b10#2) := by
  obtain hover | hfit := Nat.lt_or_ge 64 size
  · exact ⟨_, exec_eg_overflow s hb lo hi hs hover,
      iff_of_false (by simp) (Nat.not_le.2 hover), fun _ => rfl⟩
  · exact ⟨_, exec_eg_ok s hb lo hi hs hfit, iff_of_true rfl hfit, fun hne => absurd rfl hne⟩

end Parts

/-- Settles O39: `exec_eg_ok`, where the size alone says that the order is below the width. -/
theorem expGolombWritesValueAndSize : Obligations.ExpGolombWritesValueAndSize :=
  fun _ _ s _ _ _ hb lo hi hs hfit => exec_eg_ok s hb lo hi hs hfit

/-- Settles O40: an order past the width has a size past the width, and a size that fits bounds the
length of value. -/
theorem expGolombOverflowsPastTheWidth : Obligations.ExpGolombOverflowsPastTheWidth := by
  intro a b s k hb
  refine ⟨fun hlarge => ?_, fun hk => ⟨Nat.le_add_left _ _, ?_, fun len size lo hi hs => ⟨?_, ?_⟩⟩⟩
  · obtain ⟨len, size, lo, hi, hs, -⟩ := expGolomb_parts a.toNat k
    obtain ⟨-, hsize⟩ := length_le_size hi hs
    exact exec_eg_overflow s hb lo hi hs (hlarge.trans_lt hsize)
  · have hpow : 2 ^ k ≤ 2 ^ 63 := Nat.pow_le_pow_right (by decide) (by omega)
    have ha : a.toNat < 2 ^ 64 := a.isLt
    omega
  · exact exec_eg_overflow s hb lo hi hs
  · intro hfit
    obtain ⟨hlen, -⟩ := length_le_size hi hs
    exact ⟨hlen, hi.trans_le (Nat.pow_le_pow_right (by decide) (hlen.trans hfit))⟩

/-- Settles O41: the parameter check comes first, and an EG that passes it ends in a code word or in
Overflow. -/
theorem expGolombRejectsNegativeOrder : Obligations.ExpGolombRejectsNegativeOrder := by
  intro a b s
  refine ⟨fun hneg => exec_of_error (i := .eg a b) (expGolomb_negative hneg) s, fun hpos => ?_⟩
  obtain ⟨k, hb⟩ := Int.eq_ofNat_of_zero_le hpos
  obtain ⟨len, size, lo, hi, hs, -⟩ := expGolomb_parts a.toNat k
  obtain ⟨t, h, -, hover⟩ := eg_status s hb lo hi hs
  refine ⟨t, h, fun hinvalid => ?_⟩
  have hne : t.status ≠ 0b00#2 := by rw [hinvalid]; decide
  exact absurd (hinvalid.symm.trans (hover hne)) (by decide)

/-- Settles O42: the leading one of value stands at k or above, and a sum of two numbers below `2^w` is
below `2^(w+1)`. -/
theorem expGolombLengthAndSizeBounds : Obligations.ExpGolombLengthAndSizeBounds := by
  intro w data k len hlen
  obtain ⟨e, -, lo, hi, -, hk⟩ := expGolomb_parts data k
  have hle : len = e + 1 := hlen.trans (bitlen_eq_of_bounds lo hi)
  refine ⟨by omega, by omega, by omega, by omega, fun hkw hdata => ?_⟩
  have hpow : 2 ^ k < 2 ^ w := Nat.pow_lt_pow_right (by decide) hkw
  have hwhole : clz (w + 1) (data + 2 ^ k) + bitlen (data + 2 ^ k) = w + 1 :=
    clz_add_bitlen (by rw [Nat.pow_succ]; omega)
  omega

/-- The size fits exactly if value lies below `2^Lmax(k)` (41_expgolomb.md R119). -/
theorem size_le_iff_value_lt {data k len size : Nat} (lo : 2 ^ len ≤ data + 2 ^ k)
    (hi : data + 2 ^ k < 2 ^ (len + 1)) (hs : size + k + 1 = 2 * (len + 1)) :
    size ≤ 64 ↔ data + 2 ^ k < 2 ^ ((65 + k) / 2) := by
  rw [← bitlen_le_iff, bitlen_eq_of_bounds lo hi]
  omega

/-- Below `2^Lmax(k)` there is room for `2^k`, so the largest data of the rule does not wrap
(41_expgolomb.md R119). -/
theorem value_lt_iff_data_le {data k : Nat} (hk : k ≤ 63) :
    data + 2 ^ k < 2 ^ ((65 + k) / 2) ↔ data ≤ 2 ^ ((65 + k) / 2) - 2 ^ k - 1 := by
  have hroom : 2 ^ k < 2 ^ ((65 + k) / 2) := Nat.pow_lt_pow_right (by decide) (by omega)
  omega

/-- Settles O44: the status is OK where the size fits, which `size_le_iff_value_lt` reads as the bound on
value; the four cases are successes with the leading one at 31, 32, 62 and 63. -/
theorem expGolombLargestDataOfAnOrder : Obligations.ExpGolombLargestDataOfAnOrder := by
  refine ⟨fun a b s k hb hk => ?_, fun s => ⟨?_, ?_, ?_, ?_⟩⟩
  · obtain ⟨len, size, lo, hi, hs, -⟩ := expGolomb_parts a.toNat k
    obtain ⟨t, h, hok, hover⟩ := eg_status s hb lo hi hs
    have hvalue := hok.trans (size_le_iff_value_lt lo hi hs)
    exact ⟨t, h, hvalue, hvalue.trans (value_lt_iff_data_le hk), hover⟩
  · exact ⟨_, exec_eg_ok s (k := 0) (len := 31) (size := 63) rfl (by decide) (by decide) rfl (by decide),
      rfl, rfl⟩
  · exact ⟨_, exec_eg_ok s (k := 1) (len := 32) (size := 64) rfl (by decide) (by decide) rfl (by decide),
      rfl, rfl⟩
  · exact ⟨_, exec_eg_ok s (k := 62) (len := 62) (size := 63) rfl (by decide) (by decide) rfl
      (by decide), rfl, rfl⟩
  · exact ⟨_, exec_eg_ok s (k := 63) (len := 63) (size := 64) rfl (by decide) (by decide) rfl
      (by decide), rfl, rfl, rfl⟩

end Sys2Proof.Machine

/-! ## 41_expgolomb.md R118 and R120: the code word of EG and its stream

`eg_success` gives RES and SIZE as numbers: value, whose leading one is at position len, and a size that
puts `len - k` zeros above it. The reader counts these zeros, which with k give the length of value. -/

namespace Sys2Proof.Machine

/-- The reader on a stream of the two parts of R118 (41_expgolomb.md R120). -/
theorem readExpGolomb_parts {data k len : Nat} (lo : 2 ^ len ≤ data + 2 ^ k)
    (hi : data + 2 ^ k < 2 ^ (len + 1)) (rest : List Bool) :
    readExpGolomb k (List.replicate (len - k) false ++ bitstring (data + 2 ^ k) (len + 1) ++ rest)
      = some (data, rest) := by
  have hk : len - k + 1 + k = len + 1 := by have := order_le_length hi; omega
  have hlead : bitstring (data + 2 ^ k) (len + 1) = true :: bitstring (data + 2 ^ k) len := by
    rw [bitstring_succ, Nat.testBit_of_two_pow_le_and_two_pow_add_one_gt lo hi]
  have hread := readBits_of_lt hi rest
  rw [hlead, List.cons_append] at hread
  rw [List.append_assoc, hlead, List.cons_append, readExpGolomb, leadingZeros_replicate]
  simp only [hk, hread, Option.map_some, Nat.add_sub_cancel]

section Success

variable {a b : Word} {s t : State} {k len : Nat}

/-- The stream of an EG code word (41_expgolomb.md R118). -/
theorem eg_codeWord (hb : b.toInt = k) (h : exec (.eg a b) s = .next t) (ht : t.status = 0b00#2)
    (lo : 2 ^ len ≤ a.toNat + 2 ^ k) (hi : a.toNat + 2 ^ k < 2 ^ (len + 1)) :
    t.codeWord = List.replicate (len - k) false ++ bitstring (a.toNat + 2 ^ k) (len + 1) := by
  have hk := order_le_length hi
  obtain ⟨-, -, hres, hsize⟩ :=
    eg_success (size := len - k + (len + 1)) hb h ht lo hi (by omega)
  rw [← bitstring_pad hi, ← hres, ← hsize]
  rfl

/-- After an EG that succeeds the reader answers the data, whatever follows the code word
(41_expgolomb.md R120). -/
theorem readExpGolomb_codeWord (hb : b.toInt = k) (h : exec (.eg a b) s = .next t)
    (ht : t.status = 0b00#2) (rest : List Bool) :
    readExpGolomb k (t.codeWord ++ rest) = some (a.toNat, rest) := by
  obtain ⟨len, -, lo, hi, -, -⟩ := expGolomb_parts a.toNat k
  rw [eg_codeWord hb h ht lo hi, readExpGolomb_parts lo hi]

/-- SIZE does not decrease as the data grows, since the leading one of value does not fall
(41_expgolomb.md R120). -/
theorem eg_size_mono {a' : Word} {s' t' : State} (hb : b.toInt = k) (h : exec (.eg a b) s = .next t)
    (ht : t.status = 0b00#2) (h' : exec (.eg a' b) s' = .next t') (ht' : t'.status = 0b00#2)
    (hle : a.toNat ≤ a'.toNat) : t.size.toNat ≤ t'.size.toNat := by
  obtain ⟨len, size, lo, hi, hs, -⟩ := expGolomb_parts a.toNat k
  obtain ⟨len', size', lo', hi', hs', -⟩ := expGolomb_parts a'.toNat k
  obtain ⟨-, -, -, hsize⟩ := eg_success hb h ht lo hi hs
  obtain ⟨-, -, -, hsize'⟩ := eg_success hb h' ht' lo' hi' hs'
  have hlen : len < len' + 1 :=
    (Nat.pow_lt_pow_iff_right (by decide : 1 < 2)).1 (by omega : 2 ^ len < 2 ^ (len' + 1))
  omega

end Success

/-- Settles O43: `eg_codeWord`, and RES between `2^len` and `2^(len+1)`. -/
theorem expGolombStreamIsZerosThenValue : Obligations.ExpGolombStreamIsZerosThenValue := by
  intro a b s t k len hb lo hi h ht
  have hk := order_le_length hi
  obtain ⟨-, -, hres, hsize⟩ :=
    eg_success (size := len - k + (len + 1)) hb h ht lo hi (by omega)
  have hstream := eg_codeWord hb h ht lo hi
  rw [← hres] at lo hi
  exact ⟨hstream, hk, by omega, Nat.testBit_of_two_pow_le_and_two_pow_add_one_gt lo hi,
    fun j hj => getLsbD_eq_false_of_toNat_lt hi hj, by omega⟩

/-- Code words that a reader answers with any bits behind them are prefix-free: a stream that begins with
two of them is read as both data (41_expgolomb.md R120). -/
theorem eq_of_prefix_of_read {read : List Bool → Option (Nat × List Bool)} {x x' : Nat}
    {bits bits' : List Bool} (h : ∀ rest, read (bits ++ rest) = some (x, rest))
    (h' : ∀ rest, read (bits' ++ rest) = some (x', rest)) (hprefix : bits <+: bits') : x = x' := by
  obtain ⟨rest, rfl⟩ := hprefix
  have hboth := h' []
  rw [List.append_nil, h rest] at hboth
  exact (Prod.mk.inj (Option.some.inj hboth)).1

/-- Settles O45: the reader on the stream, the prefix-freeness that follows from it, and the growth of the
size. -/
theorem expGolombRoundTripsThroughTheStream : Obligations.ExpGolombRoundTripsThroughTheStream := by
  intro a b s t k hb h ht
  have hread := readExpGolomb_codeWord hb h ht
  refine ⟨hread, fun a' s' t' h' ht' => ⟨fun hprefix => ?_, eg_size_mono hb h ht h' ht'⟩⟩
  have hread' := readExpGolomb_codeWord hb h' ht'
  exact BitVec.eq_of_toNat_eq (eq_of_prefix_of_read hread hread' hprefix).symm

end Sys2Proof.Machine

/-! ## 42_signmap.md R134 and R136: the mappings on the integers

The normal mapping is the regular one of the negated value, and the special mapping the regular one of
the complement `-v - 1`. So one bijection, `mapRegular_eq_iff`, gives all three. -/

namespace Sys2Proof.Machine

/-- The two branches of the normal mapping (42_signmap.md R130). -/
theorem mapNormal_cases (v : Int) :
    (v ≤ 0 ∧ mapNormal v = -2 * v) ∨ (0 < v ∧ mapNormal v = 2 * v - 1) := by
  unfold mapNormal
  split <;> omega

/-- The two branches of the regular mapping (42_signmap.md R131). -/
theorem mapRegular_cases (v : Int) :
    (0 ≤ v ∧ mapRegular v = 2 * v) ∨ (v < 0 ∧ mapRegular v = -2 * v - 1) := by
  unfold mapRegular
  split <;> omega

/-- The two branches of the special mapping (42_signmap.md R132). -/
theorem mapSpecial_cases (v : Int) :
    (0 ≤ v ∧ mapSpecial v = 2 * v + 1) ∨ (v < 0 ∧ mapSpecial v = -2 * (v + 1)) := by
  unfold mapSpecial
  split <;> omega

/-- The two branches of the inverse of the regular mapping (42_signmap.md R134). -/
theorem unmapRegular_cases (y : Nat) :
    (0 ≤ unmapRegular y ∧ 2 * unmapRegular y = y) ∨
    (unmapRegular y < 0 ∧ 2 * unmapRegular y = -y - 1) := by
  unfold unmapRegular
  split <;> omega

theorem mapNormal_eq_mapRegular_neg (v : Int) : mapNormal v = mapRegular (-v) := by
  have hnormal := mapNormal_cases v
  have hregular := mapRegular_cases (-v)
  omega

theorem mapSpecial_eq_mapRegular_complement (v : Int) : mapSpecial v = mapRegular (-v - 1) := by
  have hspecial := mapSpecial_cases v
  have hregular := mapRegular_cases (-v - 1)
  omega

theorem unmapNormal_eq_neg_unmapRegular (y : Nat) : unmapNormal y = -unmapRegular y := by
  unfold unmapNormal unmapRegular
  split <;> omega

theorem unmapSpecial_eq_complement_unmapRegular (y : Nat) :
    unmapSpecial y = -unmapRegular y - 1 := by
  unfold unmapSpecial unmapRegular
  split <;> split <;> omega

/-- The regular mapping and its inverse undo each other: a branch of one is a branch of the other. -/
theorem mapRegular_eq_iff {v : Int} {y : Nat} : mapRegular v = y ↔ v = unmapRegular y := by
  have hmap := mapRegular_cases v
  have hunmap := unmapRegular_cases y
  omega

/-- Each mapping and its inverse undo each other (42_signmap.md R134). -/
theorem mapValue_eq_iff (m : MapName) {v : Int} {y : Nat} :
    mapValue m v = y ↔ v = unmapValue m y := by
  cases m with
  | n =>
    simp only [mapValue, unmapValue, mapNormal_eq_mapRegular_neg, unmapNormal_eq_neg_unmapRegular,
      mapRegular_eq_iff]
    omega
  | r => exact mapRegular_eq_iff
  | s =>
    simp only [mapValue, unmapValue, mapSpecial_eq_mapRegular_complement,
      unmapSpecial_eq_complement_unmapRegular, mapRegular_eq_iff]
    omega

theorem mapValue_nonneg (m : MapName) (v : Int) : 0 ≤ mapValue m v := by
  cases m with
  | n => exact mapNormal_nonneg v
  | r => exact mapRegular_nonneg v
  | s => exact mapSpecial_nonneg v

theorem unmapValue_mapValue (m : MapName) (v : Int) : unmapValue m (mapValue m v).toNat = v :=
  ((mapValue_eq_iff m).1 (Int.toNat_of_nonneg (mapValue_nonneg m v)).symm).symm

theorem mapValue_unmapValue (m : MapName) (y : Nat) : mapValue m (unmapValue m y) = y :=
  (mapValue_eq_iff m).2 rfl

theorem mapValue_injective (m : MapName) : Function.Injective (mapValue m) :=
  Function.LeftInverse.injective (g := fun x : Int => unmapValue m x.toNat) (unmapValue_mapValue m)

/-- A range covers y exactly if it holds the inverse image of y. -/
theorem exists_mapValue_eq_iff (m : MapName) {lo hi : Int} {y : Nat} :
    (∃ v, lo ≤ v ∧ v ≤ hi ∧ mapValue m v = y) ↔ lo ≤ unmapValue m y ∧ unmapValue m y ≤ hi := by
  simp only [mapValue_eq_iff m, exists_eq_right_right]

/-- Settles O52: where the inverse image of y lies, in each branch of the regular inverse. -/
theorem mappingsCoverASymmetricRange : Obligations.MappingsCoverASymmetricRange := by
  intro n y
  have hunmap := unmapRegular_cases y
  have hnormal := unmapNormal_eq_neg_unmapRegular y
  have hspecial := unmapSpecial_eq_complement_unmapRegular y
  refine ⟨(exists_mapValue_eq_iff .n).trans ?_, (exists_mapValue_eq_iff .r).trans ?_,
    (exists_mapValue_eq_iff .s).trans ?_, (exists_mapValue_eq_iff .s).trans ?_,
    fun v v' => ⟨@mapValue_injective .n v v', @mapValue_injective .r v v',
      @mapValue_injective .s v v'⟩⟩ <;>
  simp only [unmapValue] <;> omega

end Sys2Proof.Machine

/-! ## 42_signmap.md R130 to R133: the next state of a map command

The mapped value of a word fits RES (`mapped_word_fits`), but for the one Overflow of MAPN. -/

namespace Sys2Proof.Machine

/-- A map command that succeeds writes its mapped value as it is (42_signmap.md R133). -/
theorem exec_of_mapped {i : Instr} {x : Int} {n : Nat} (h : resultOf i = .ok (mapped x))
    (hn : (n : Int) = x) (s : State) :
    exec i s = .next { s with
      res := BitVec.ofNat 64 n, size := 0#_, status := 0b00#2, rspValid := true } := by
  subst hn
  exact exec_of_ok h s

theorem exec_mapn_overflow {a b : Word} (h : a.toInt = -2 ^ 63) (s : State) :
    exec (.mapn a b) s
      = .next { s with res := 0#64, size := 0#_, status := 0b10#2, rspValid := true } :=
  exec_of_error (i := .mapn a b) (mapnResult_overflow h) s

/-- Settles O46: the two branches of the mapping on each side of the one Overflow. -/
theorem mapNormalWritesTheMappedValue : Obligations.MapNormalWritesTheMappedValue := by
  intro a b s
  refine ⟨fun hmin => exec_mapn_overflow hmin s, fun hgt n hnonpos hpos => ?_⟩
  have hne : a.toInt ≠ -2 ^ 63 := hgt.ne'
  have hn : (n : Int) = mapNormal a.toInt := by
    have hcases := mapNormal_cases a.toInt
    omega
  obtain ⟨-, -, hfits⟩ := mapped_word_fits a
  have hlt := hfits hne
  exact ⟨by omega, exec_of_mapped (i := .mapn a b) (mapnResult_ok hne) hn s⟩

/-- Settles O47, by the two branches of the mapping. -/
theorem mapRegularWritesTheMappedValue : Obligations.MapRegularWritesTheMappedValue := by
  intro a b s n hnonneg hneg
  have hn : (n : Int) = mapRegular a.toInt := by
    have hcases := mapRegular_cases a.toInt
    omega
  obtain ⟨hfits, -, -⟩ := mapped_word_fits a
  exact ⟨by omega, exec_of_mapped (i := .mapr a b) rfl hn s⟩

/-- Settles O48, by the two branches of the mapping. -/
theorem mapSpecialWritesTheMappedValue : Obligations.MapSpecialWritesTheMappedValue := by
  intro a b s n hnonneg hneg
  have hn : (n : Int) = mapSpecial a.toInt := by
    have hcases := mapSpecial_cases a.toInt
    omega
  obtain ⟨-, hfits, -⟩ := mapped_word_fits a
  exact ⟨by omega, exec_of_mapped (i := .maps a b) rfl hn s⟩

/-- The edge that accepts a command commits the outcome of the three fields on the ports. -/
theorem step_accept_outcomeOf {s : State} (hr : s.ports.rst = false)
    (hv : s.ports.cmdValid = true) :
    step s = .next (s.takeEdge.commit (outcomeOf s.ports.cmdOp s.ports.cmdA s.ports.cmdB)) := by
  obtain ⟨hop, ha, hb⟩ := fields_commandOf s.ports.cmdOp s.ports.cmdA s.ports.cmdB
  rw [step_accept hr hv, exec_eq, Ports.bundle, decode_make, resultOf_eq_outcomeOf, hop, ha, hb]

/-- The ends of a map command: Overflow, or a mapped value, whatever B is (42_signmap.md R133). -/
theorem outcomeOf_map {op : OpWord} (h : op = 0b010#3 ∨ op = 0b011#3 ∨ op = 0b100#3) (a : Word) :
    (∀ b, outcomeOf op a b = .error .overflow) ∨ ∃ x, ∀ b, outcomeOf op a b = .ok (mapped x) := by
  obtain rfl | rfl | rfl := h
  · by_cases hmin : a.toInt = -2 ^ 63
    · exact .inl fun _ => mapnResult_overflow hmin
    · exact .inr ⟨_, fun _ => mapnResult_ok hmin⟩
  · exact .inr ⟨_, fun _ => rfl⟩
  · exact .inr ⟨_, fun _ => rfl⟩

/-- Settles O49: the edge commits one of the two ends of a map command, the same for every B. -/
theorem mapCommandsIgnoreOperandB : Obligations.MapCommandsIgnoreOperandB := by
  intro s b' hr hv hop
  have hstep' := step_accept_outcomeOf (s := { s with ports := { s.ports with cmdB := b' } }) hr hv
  refine ⟨_, step_accept_outcomeOf hr hv, ?_⟩
  obtain herror | ⟨x, hok⟩ := outcomeOf_map hop s.ports.cmdA
  · rw [herror] at hstep' ⊢
    exact ⟨hstep', rfl, by simp⟩
  · rw [hok] at hstep' ⊢
    exact ⟨hstep', rfl, by simp⟩

end Sys2Proof.Machine

/-! ## 42_signmap.md R134, R135 and R137: the mappings on words

The datapath computes the regular mapping as `zigzag`. MAPS is the zigzag of the complement, and MAPN,
where it succeeds, that of the negation, so their bijections are that of `zigzag`. -/

namespace Sys2Proof.Machine

/-- The shift and XOR of the datapath: the conditional negation of the doubled input by its sign
(42_signmap.md R135). -/
def zigzag (a : BitVec 64) : BitVec 64 := (a <<< 1) ^^^ (a.sshiftRight 63)

/-- The complement of a word is that of its value, `-v - 1`. -/
theorem toInt_complement (a : BitVec 64) : (~~~a).toInt = -a.toInt - 1 := by
  have hnot : (~~~a).toNat = 2 ^ 64 - 1 - a.toNat := BitVec.toNat_not
  have hlt : a.toNat < 2 ^ 64 := a.isLt
  rw [BitVec.toInt_eq_toNat_cond, BitVec.toInt_eq_toNat_cond, hnot]
  split <;> split <;> omega

/-- The negation of a word is that of its value, but for the most negative one. -/
theorem toInt_neg_of_ne {a : BitVec 64} (h : a.toInt ≠ -2 ^ 63) : (-a).toInt = -a.toInt :=
  BitVec.toInt_neg_of_ne_intMin fun hmin => h (by rw [hmin]; decide)

/-- The arithmetic shift spreads the sign of a word over all bits: no bit of a non-negative word. -/
theorem sshiftRight_63_of_nonneg {a : BitVec 64} (h : 0 ≤ a.toInt) : a.sshiftRight 63 = 0#64 := by
  have hmsb : a.msb = false := by simpa [BitVec.msb_eq_toInt] using h
  have hlt : a.toNat < 2 ^ 63 := by simpa [BitVec.msb_eq_decide] using hmsb
  rw [BitVec.sshiftRight_eq_of_msb_false hmsb]
  bv_omega

/-- Every bit of a negative word, whose complement is non-negative. -/
theorem sshiftRight_63_of_neg {a : BitVec 64} (h : a.toInt < 0) :
    a.sshiftRight 63 = BitVec.allOnes 64 := by
  have hnot : (~~~a).sshiftRight 63 = 0#64 := sshiftRight_63_of_nonneg (by
    rw [toInt_complement]; omega)
  rw [← BitVec.not_zero, ← hnot, BitVec.not_sshiftRight_not]

/-- The datapath computes the regular mapping: a non-negative word is doubled, and the sign of a negative
one complements the doubled word. -/
theorem toNat_zigzag (a : BitVec 64) : ((zigzag a).toNat : Int) = mapRegular a.toInt := by
  have hval := BitVec.toInt_eq_toNat_cond a
  unfold zigzag
  obtain ⟨hv, hmap⟩ | ⟨hv, hmap⟩ := mapRegular_cases a.toInt
  · rw [sshiftRight_63_of_nonneg hv, BitVec.xor_zero, hmap]
    bv_omega
  · rw [sshiftRight_63_of_neg hv, BitVec.xor_allOnes, hmap]
    bv_omega

/-- The complement changes bit 0 of the zigzag alone: above it, both operands of the XOR change
(42_signmap.md R135). -/
theorem zigzag_not (a : BitVec 64) : zigzag (~~~a) = zigzag a ^^^ 1#64 := by
  unfold zigzag
  ext i hi
  rw [← BitVec.not_sshiftRight]
  cases i with
  | zero => simp
  | succ i => simp

/-- The one word whose zigzag is y (42_signmap.md R134). -/
def unzigzag (y : BitVec 64) : BitVec 64 := BitVec.ofInt 64 (unmapRegular y.toNat)

theorem toInt_unzigzag (y : BitVec 64) : (unzigzag y).toInt = unmapRegular y.toNat := by
  have hlt : y.toNat < 2 ^ 64 := y.isLt
  have hunmap := unmapRegular_cases y.toNat
  exact BitVec.toInt_ofInt_eq_self (by decide) (by omega) (by omega)

theorem zigzag_eq_iff {a y : BitVec 64} : zigzag a = y ↔ a = unzigzag y := by
  rw [← BitVec.toInt_inj (x := a), toInt_unzigzag, ← mapRegular_eq_iff, ← toNat_zigzag, Int.natCast_inj,
    BitVec.toNat_inj]

theorem zigzag_injective {a a' : BitVec 64} (h : zigzag a = zigzag a') : a = a' :=
  (zigzag_eq_iff.1 h).trans (zigzag_eq_iff.1 rfl).symm

/-- A word of the value that the regular mapping gives is the zigzag. -/
theorem eq_zigzag_of_toNat {x a : BitVec 64} (h : (x.toNat : Int) = mapRegular a.toInt) :
    x = zigzag a := by
  rw [← toNat_zigzag, Int.natCast_inj] at h
  exact BitVec.eq_of_toNat_eq h

section Registers

variable (a b : Word) (s : State)

/-- MAPR writes the zigzag of its input (42_signmap.md R135). -/
theorem commit_mapr_res : (s.commit (resultOf (.mapr a b))).res = zigzag a :=
  eq_zigzag_of_toNat (mapr_value (exec_eq (.mapr a b) s))

/-- MAPS writes the zigzag of the complement of its input (42_signmap.md R135). -/
theorem commit_maps_res : (s.commit (resultOf (.maps a b))).res = zigzag (~~~a) :=
  eq_zigzag_of_toNat (by
    rw [toInt_complement, ← mapSpecial_eq_mapRegular_complement, maps_value (exec_eq (.maps a b) s)])

/-- A MAPN that succeeds writes the zigzag of the negated input (42_signmap.md R135). -/
theorem commit_mapn_res {a : Word} (h : a.toInt ≠ -2 ^ 63) :
    (s.commit (resultOf (.mapn a b))).res = zigzag (-a) :=
  eq_zigzag_of_toNat (by
    rw [toInt_neg_of_ne h, ← mapNormal_eq_mapRegular_neg, mapn_value (exec_eq (.mapn a b) s) h])

theorem commit_mapn_overflow {a : Word} (h : a.toInt = -2 ^ 63) :
    s.commit (resultOf (.mapn a b)) = s.writeError .overflow :=
  congrArg s.commit (mapnResult_overflow h)

theorem commit_mapn_status :
    (s.commit (resultOf (.mapn a b))).status = 0b00#2 ↔ a.toInt ≠ -2 ^ 63 := by
  by_cases hmin : a.toInt = -2 ^ 63
  · rw [commit_mapn_overflow b s hmin]
    exact iff_of_false (error_status_ne_ok .overflow) (not_not_intro hmin)
  · rw [show resultOf (.mapn a b) = .ok _ from mapnResult_ok hmin]
    exact iff_of_true rfl hmin

/-- MAPN never writes the largest word: where it fails it writes 0 (42_signmap.md R130). -/
theorem commit_mapn_res_le : (s.commit (resultOf (.mapn a b))).res.toNat ≤ 2 ^ 64 - 2 := by
  by_cases hmin : a.toInt = -2 ^ 63
  · rw [commit_mapn_overflow b s hmin]
    exact Nat.zero_le _
  · have hres := mapn_value (exec_eq (.mapn a b) s) hmin
    obtain ⟨-, -, hfits⟩ := mapped_word_fits a
    have hlt := hfits hmin
    omega

end Registers

/-- Settles O51: RES of each map command as a zigzag, and `zigzag_not`. -/
theorem mappingsAreTheDatapathIdentities : Obligations.MappingsAreTheDatapathIdentities := by
  intro a b s
  refine ⟨⟨_, exec_eq _ s, commit_mapr_res a b s⟩, ⟨_, _, exec_eq _ s, exec_eq _ s, ?_⟩,
    fun hne => ⟨_, _, exec_eq _ s, exec_eq _ s, ?_⟩⟩
  · rw [commit_maps_res, commit_mapr_res, zigzag_not]
  · rw [commit_mapn_res b s hne, commit_mapr_res]

/-- Settles O53: no word is its own complement, and 0 alone of those that MAPN maps is its own
negation. -/
theorem mappingsDifferPairwise : Obligations.MappingsDifferPairwise := by
  intro a b s
  refine ⟨_, _, _, exec_eq _ s, exec_eq _ s, exec_eq _ s, ?_⟩
  rw [commit_mapn_status, commit_mapr_res, commit_maps_res]
  refine ⟨zigzag_not a, fun heq => ?_, fun hzero hne heq => ?_, fun hzero => ?_⟩
  · have hself := toInt_complement a
    rw [zigzag_injective heq] at hself
    omega
  · have hself := toInt_neg_of_ne hne
    rw [commit_mapn_res b s hne] at heq
    rw [zigzag_injective heq] at hself
    have hval : a.toInt = 0 := by omega
    exact hzero (BitVec.eq_of_toInt_eq (hval.trans BitVec.toInt_zero.symm))
  · subst hzero
    rw [commit_mapn_res b s (by decide)]
    decide

/-- What a command can end in is what it commits. -/
theorem exists_exec_iff {i : Instr} {s : State} {P : State → Prop} :
    (∃ t, exec i s = .next t ∧ P t) ↔ P (s.commit (resultOf i)) := by
  simp [exec_eq]

/-- The inverse image by MAPN of a y below the largest word is a value that MAPN accepts
(42_signmap.md R134). -/
theorem toInt_neg_unzigzag_ne {y : BitVec 64} (hle : y.toNat ≤ 2 ^ 64 - 2) :
    (-unzigzag y).toInt ≠ -2 ^ 63 := by
  have hval := toInt_unzigzag y
  have hunmap := unmapRegular_cases y.toNat
  rw [toInt_neg_of_ne (by omega)]
  omega

/-- Settles O50: the integers by `mapValue_eq_iff`, the words by `zigzag_eq_iff`; MAPN is a bijection
onto the words up to `2^64 - 2`, past which it writes nothing. -/
theorem mappingsAreBijections : Obligations.MappingsAreBijections := by
  refine ⟨fun v => ⟨mapNormal_nonneg v, unmapValue_mapValue .n v⟩, mapValue_unmapValue .n,
    fun v => ⟨mapRegular_nonneg v, unmapValue_mapValue .r v⟩, mapValue_unmapValue .r,
    fun v => ⟨mapSpecial_nonneg v, unmapValue_mapValue .s v⟩, mapValue_unmapValue .s,
    fun s y b => ⟨⟨unzigzag y, fun a => ?_⟩, ⟨~~~unzigzag y, fun a => ?_⟩,
      fun hle => ⟨-unzigzag y, toInt_neg_unzigzag_ne hle, fun a => ?_⟩, ?_⟩⟩
  · rw [exists_exec_iff, commit_mapr_res, zigzag_eq_iff]
  · rw [exists_exec_iff, commit_maps_res, zigzag_eq_iff, BitVec.not_eq_comm]
  · rw [exists_exec_iff, commit_mapn_status, and_congr_right fun hne => by
      rw [commit_mapn_res b s hne, zigzag_eq_iff, neg_eq_iff_eq_neg]]
    exact and_iff_right_of_imp fun ha => ha ▸ toInt_neg_unzigzag_ne hle
  · rintro hmax ⟨a, t, h, rfl⟩
    have hle := commit_mapn_res_le a b s
    rw [← exec_next h] at hle
    omega

end Sys2Proof.Machine

/-! ## 60_exceptions.md R151 to R156: the errors of a command and their causes

`CmdError.RaisedBy` is the cause table of R155. It says exactly which error `resultOf` ends in, and a
commit shows the code of that error and no other. -/

namespace Sys2Proof.Machine

/-- The exact size of GR by the log2 of the modulus (40_golomb.md R82, R84, R86). -/
theorem golombSize_eq_log2 (m data : Nat) :
    golombSize m data = data / m + 1 +
      if data % m < 2 ^ (Nat.log2 m + 1) - m then Nat.log2 m else Nat.log2 m + 1 := by
  have hlog : floorLog2 m = Nat.log2 m := by
    obtain rfl | hm := eq_or_ne m 0
    · simp [floorLog2, bitlen]
    · exact floorLog2_eq_log2 hm
  simp only [golombSize, remainderBits, truncatedBinary, hlog, apply_ite Prod.snd]

/-- The value of EG has a leading one (41_expgolomb.md R112, R113). -/
theorem bitlen_value_eq_log2 (data k : Nat) :
    bitlen (data + 2 ^ k) = Nat.log2 (data + 2 ^ k) + 1 := by
  have hpos : 0 < 2 ^ k := Nat.two_pow_pos k
  exact if_neg (by omega)

/-- The cause table, by command (60_exceptions.md R155). -/
def CmdError.RaisedBy (e : CmdError) : Instr → Prop
  | .gr a b => (e = .invalidParameter ∧ b.toInt ≤ 0) ∨
      (e = .overflow ∧ ∃ m : Nat, b.toInt = m ∧ 0 < m ∧ 64 < golombSize m a.toNat)
  | .eg a b => (e = .invalidParameter ∧ b.toInt < 0) ∨
      (e = .overflow ∧ ∃ k : Nat, b.toInt = k ∧
        (64 ≤ k ∨ 64 < 2 * bitlen (a.toNat + 2 ^ k) - k - 1))
  | .mapn a _ => e = .overflow ∧ a.toInt = -2 ^ 63
  | .mapr _ _ | .maps _ _ => False
  | .reserved101 _ _ | .reserved110 _ _ | .reserved111 _ _ => e = .illegalOp

/-- A check that raises one error raises it exactly if its condition holds. -/
theorem ite_error_eq_error_iff {c : Prop} [Decidable c] {e e' : CmdError} {v : Result} :
    (if c then .error e' else .ok v : Except CmdError Result) = .error e ↔ e = e' ∧ c := by
  split
  next hc => simp [hc, eq_comm]
  next hc => simp [hc]

/-- The errors of GR: the parameter check, then the exact size (60_exceptions.md R152, R153, R156). -/
theorem golomb_eq_error_iff {w data : Nat} {style : UnaryStyle} {p : Int} {e : CmdError} :
    golomb w style data p = .error e ↔
      (e = .invalidParameter ∧ p ≤ 0) ∨
      (e = .overflow ∧ ∃ m : Nat, p = m ∧ 0 < m ∧ w < golombSize m data) := by
  obtain hneg | hpos := le_or_gt p 0
  · have hno : ¬ ∃ m : Nat, p = m ∧ 0 < m ∧ w < golombSize m data := by
      rintro ⟨m, rfl, hm, -⟩
      omega
    simp [golomb, hneg, hno, eq_comm]
  · lift p to Nat using hpos.le
    have hsize : golombPositive w style data p = .error e ↔ e = .overflow ∧ w < golombSize p data :=
      ite_error_eq_error_iff
    have hm : 0 < p := Int.natCast_pos.1 hpos
    simpa [golomb, hm, hm.ne'] using hsize

/-- The errors of EG: the parameter check, then the order, then the exact size (60_exceptions.md R152,
R153, R156). -/
theorem expGolomb_eq_error_iff {w data : Nat} {p : Int} {e : CmdError} :
    expGolomb w data p = .error e ↔
      (e = .invalidParameter ∧ p < 0) ∨
      (e = .overflow ∧ ∃ k : Nat, p = k ∧ (w ≤ k ∨ w < 2 * bitlen (data + 2 ^ k) - k - 1)) := by
  obtain hneg | hpos := lt_or_ge p 0
  · have hno : ¬ ∃ k : Nat, p = k ∧ (w ≤ k ∨ w < 2 * bitlen (data + 2 ^ k) - k - 1) := by
      rintro ⟨k, rfl, -⟩
      omega
    simp [expGolomb, hneg, hno, eq_comm]
  · lift p to Nat using hpos
    have hsize : expGolombOrder w data p = .error e ↔
        e = .overflow ∧ w < 2 * bitlen (data + 2 ^ p) - p - 1 := ite_error_eq_error_iff
    obtain hlarge | hlt := le_or_gt w p
    · simp [expGolomb_large hlarge, hlarge, eq_comm]
    · have hk : ¬ (p : Int) < 0 := (Int.natCast_nonneg p).not_gt
      simpa [expGolomb, hk, hlt.not_ge] using hsize

/-- The one error of MAPN (60_exceptions.md R153). -/
theorem mapnResult_eq_error_iff {a : Word} {e : CmdError} :
    mapnResult 64 a.toInt = .error e ↔ e = .overflow ∧ a.toInt = -2 ^ 63 := by
  have hmin : 2 ^ 64 - 1 < mapNormal a.toInt ↔ a.toInt = -2 ^ 63 := by
    have hlo := le_sint a
    have hhi := sint_lt a
    have hcases := mapNormal_cases a.toInt
    omega
  exact ite_error_eq_error_iff.trans (and_congr_right fun _ => hmin)

/-- A command raises exactly the errors of its row of the cause table (60_exceptions.md R155). -/
theorem resultOf_eq_error_iff (i : Instr) (e : CmdError) :
    resultOf i = .error e ↔ e.RaisedBy i := by
  cases i with
  | gr => exact golomb_eq_error_iff
  | eg => exact expGolomb_eq_error_iff
  | mapn => exact mapnResult_eq_error_iff
  | mapr | maps => simp [resultOf, CmdError.RaisedBy]
  | reserved101 | reserved110 | reserved111 => simp [resultOf, CmdError.RaisedBy, eq_comm]

/-- The three errors have three statuses (60_exceptions.md R151). -/
theorem error_status_injective {e e' : CmdError} : e.status = e'.status → e = e' := by
  cases e <;> cases e' <;> decide

/-- A commit shows the code of an error exactly if it ends in that error (60_exceptions.md R151). -/
theorem commit_status_eq_error_iff {W : Nat} (r : Except CmdError Result) (e : CmdError)
    (s : State.Block W) : (s.commit r).status = e.status.code ↔ r = .error e := by
  cases r with
  | ok v => exact iff_of_false (error_status_ne_ok e).symm (by simp)
  | error e' =>
    exact ⟨fun h => congrArg _ (error_status_injective (status_code_injective h)),
      fun h => by cases h; rfl⟩

/-- A commit that does not show STATUS OK is the error write (60_exceptions.md R151). -/
theorem commit_of_status_ne_ok {W : Nat} {r : Except CmdError Result} {s : State.Block W}
    (h : (s.commit r).status ≠ 0b00#2) : (s.commit r).res = 0#W ∧ (s.commit r).size = 0#_ := by
  cases r with
  | ok v => exact absurd rfl h
  | error e => exact ⟨rfl, rfl⟩

/-- The status of a next state is the code of an error exactly if the command raises that error. -/
theorem commit_status_eq_iff_raisedBy (i : Instr) (e : CmdError) (s : State) :
    (s.commit (resultOf i)).status = e.status.code ↔ e.RaisedBy i :=
  (commit_status_eq_error_iff _ e s).trans (resultOf_eq_error_iff i e)

/-- IllegalOp by its causes (60_exceptions.md R154). -/
theorem illegalOp_raisedBy_iff (i : Instr) : CmdError.illegalOp.RaisedBy i ↔
    ∃ a b, i = .reserved101 a b ∨ i = .reserved110 a b ∨ i = .reserved111 a b := by
  cases i <;> simp [CmdError.RaisedBy]

/-- InvalidParameter by its causes (60_exceptions.md R152). -/
theorem invalidParameter_raisedBy_iff (i : Instr) : CmdError.invalidParameter.RaisedBy i ↔
    ∃ a b : Word, (i = .gr a b ∧ b.toInt ≤ 0) ∨ (i = .eg a b ∧ b.toInt < 0) := by
  cases i <;> simp [CmdError.RaisedBy]

/-- Overflow by its causes (60_exceptions.md R153). -/
theorem overflow_raisedBy_iff (i : Instr) : CmdError.overflow.RaisedBy i ↔
    (∃ (a b : Word) (m : Nat), i = .gr a b ∧ b.toInt = m ∧ 0 < m ∧ 64 < golombSize m a.toNat) ∨
    (∃ (a b : Word) (k : Nat), i = .eg a b ∧ b.toInt = k ∧
      (64 ≤ k ∨ 64 < 2 * bitlen (a.toNat + 2 ^ k) - k - 1)) ∨
    (∃ a b : Word, i = .mapn a b ∧ a.toInt = -2 ^ 63) := by
  cases i <;> simp [CmdError.RaisedBy]

/-- Settles O22: the error write, and each error code by the rows of the cause table. -/
theorem statusFollowsTheCauseTable : Obligations.StatusFollowsTheCauseTable := by
  intro i s
  refine ⟨_, exec_eq i s, commit_rspValid _ _, commit_of_status_ne_ok, ?_, ?_, ?_⟩
  · exact (commit_status_eq_iff_raisedBy i .illegalOp s).trans (illegalOp_raisedBy_iff i)
  · exact (commit_status_eq_iff_raisedBy i .invalidParameter s).trans (invalidParameter_raisedBy_iff i)
  · have hcauses := (commit_status_eq_iff_raisedBy i .overflow s).trans (overflow_raisedBy_iff i)
    simp only [golombSize_eq_log2, bitlen_value_eq_log2] at hcauses
    exact hcauses

/-- Settles O21: each reserved command ends in IllegalOp, whatever its operands. -/
theorem reservedOpsGiveIllegalOp : Obligations.ReservedOpsGiveIllegalOp := by
  intro a b s i hi
  have hraised : resultOf i = .error .illegalOp :=
    (resultOf_eq_error_iff i _).2 ((illegalOp_raisedBy_iff i).2 ⟨a, b, hi⟩)
  exact exec_of_error hraised s

end Sys2Proof.Machine

/-! ## 70_reset_and_hazards.md R170, R171 and R178: the three kinds of edge

Each kind of edge has one next state (`step_reset`, `step_accept`, `step_idle`), built from the state
that `takeEdge` leaves. `takeEdge` forgets the sampled ports, so a reset edge and an idle edge do not
depend on the command that stands on them. -/

namespace Sys2Proof.Machine

/-- The state after sampling keeps nothing of the ports that were sampled. -/
@[simp] theorem takeEdge_with_ports {W : Nat} (s : State.Block W) (p : Ports W) :
    ({ s with ports := p } : State.Block W).takeEdge = s.takeEdge := rfl

/-- A reset edge ends in one next state, whatever command is offered on the ports. -/
theorem step_with_reset_ports (s : State) {p : Ports} (h : p.rst = true) :
    step { s with ports := p } = .next s.takeEdge.resetEdge := by
  rw [step_reset h, takeEdge_with_ports]

/-- An idle edge ends in one next state, whatever stands on the command fields. -/
theorem step_with_idle_ports (s : State) {p : Ports} (h : p.rst = false) (hv : p.cmdValid = false) :
    step { s with ports := p } = .next s.takeEdge.idleEdge := by
  rw [step_idle h hv, takeEdge_with_ports]

/-- The block never stops: every edge has a next state. -/
theorem exists_step_next (s : State) : ∃ t, step s = .next t := by
  cases hr : s.ports.rst with
  | true => exact ⟨_, step_reset hr⟩
  | false =>
    cases hv : s.ports.cmdValid with
    | true => exact ⟨_, (step_accept hr hv).trans (exec_eq _ _)⟩
    | false => exact ⟨_, step_idle hr hv⟩

/-- What a reset edge leaves, from its next state. -/
theorem step_reset_next {s t : State} (hr : s.ports.rst = true) (h : step s = .next t) :
    t = s.takeEdge.resetEdge :=
  (Host.Outcome.next.inj (step_reset hr ▸ h)).symm

/-- What an idle edge leaves, from its next state. -/
theorem step_idle_next {s t : State} (hr : s.ports.rst = false) (hv : s.ports.cmdValid = false)
    (h : step s = .next t) : t = s.takeEdge.idleEdge :=
  (Host.Outcome.next.inj (step_idle hr hv ▸ h)).symm

/-- An idle edge holds RES, SIZE and STATUS. -/
theorem takeEdge_idleEdge_sameResult {W : Nat} (s : State.Block W) : s.takeEdge.idleEdge.SameResult s :=
  ⟨rfl, rfl, rfl⟩

/-- Settles O7: the next state exists, and each kind of edge says what it is. An accepting edge commits
the outcome of the presented command, as `exec` does on the state before the edge. -/
theorem everyEdgeFollowsTheCycleRule : Obligations.EveryEdgeFollowsTheCycleRule := by
  intro s
  obtain ⟨t, h⟩ := exists_step_next s
  refine ⟨t, h, fun hr => ?reset, fun hr hv => ?accept, fun hr hv => ?idle⟩
  case reset =>
    obtain rfl := step_reset_next hr h
    exact ⟨rfl, rfl, rfl, rfl⟩
  case accept =>
    obtain rfl := step_accept_next hr hv h
    exact ⟨commit_rspValid _ _, _, exec_eq _ s, commit_sameResult _ _ s⟩
  case idle =>
    obtain rfl := step_idle_next hr hv h
    exact ⟨takeEdge_idleEdge_sameResult s, rfl⟩

/-- Settles O8: the next state of a reset edge is made of the state after sampling alone. -/
theorem resetEdgeClearsTheRegisters : Obligations.ResetEdgeClearsTheRegisters := by
  intro s valid op a b hports
  have hr : s.ports.rst = true := by rw [hports]
  exact ⟨_, step_reset hr, rfl, rfl, rfl, rfl, fun _ _ _ _ => step_with_reset_ports s rfl⟩

/-- Settles O9: an idle edge holds the result, and its next state is made of the state after sampling
alone. -/
theorem idleEdgeHoldsTheResult : Obligations.IdleEdgeHoldsTheResult := by
  intro s hr hv
  exact ⟨_, step_idle hr hv, takeEdge_idleEdge_sameResult s, rfl, fun _ _ _ => step_with_idle_ports s hr hv⟩

end Sys2Proof.Machine

/-! ## 30_encoding.md R60 to R66: the encoder, the decoder and the opcode table

`commandOf_fields` and `fields_commandOf` read the OP map both ways, and `make_fields` puts a bundle together
again from its fields. The table masks OP alone: a bundle under the mask is its OP with zero operands. -/

namespace Sys2Proof

@[simp] theorem decode_encode (i : Instr) : decode (encode i) = i := by
  rw [encode, decode_make, commandOf_fields]

@[simp] theorem encode_decode (c : Bundle) : encode (decode c) = c := by
  obtain ⟨hop, ha, hb⟩ := fields_commandOf c.op c.a c.b
  rw [encode, decode, hop, ha, hb, make_fields]

/-- Settles O3: the OP map on the OP value and the operands of a command gives the command back. -/
theorem decodeOfEncodeIsTheCommand : Obligations.DecodeOfEncodeIsTheCommand :=
  fun i _ => decode_encode i

/-- No bit pattern in A or B is reserved (R65). -/
theorem wf_eq_true (i : Instr) : i.wf = true := by cases i <;> rfl

/-- Settles O4: encoding and decoding are inverse to each other. -/
theorem encodeOfDecodeIsTheBundle : Obligations.EncodeOfDecodeIsTheBundle :=
  fun c => ⟨wf_eq_true _, encode_decode c, fun i h => by rw [← h, decode_encode]⟩

/-- Under the mask of the opcode table OP stands alone (R61). -/
theorem and_opMask (c : Bundle) : c &&& Bundle.make 0b111#3 0 0 = Bundle.make c.op 0 0 := by
  have hop : c.op &&& 0b111#3 = c.op := BitVec.and_allOnes
  have hfields : (c.op ++ c.b ++ c.a) &&& (0b111#3 ++ 0#64 ++ 0#64) = c.op ++ 0#64 ++ 0#64 := by
    rw [BitVec.and_append, BitVec.and_append, hop, BitVec.and_zero, BitVec.and_zero]
  exact (congrArg (· &&& Bundle.make 0b111#3 0 0) (make_fields c)).symm.trans hfields

/-- The OP value of a row of the opcode table. -/
def OpcodeRow.op (row : OpcodeRow) : OpWord := Bundle.op (BitVec.ofNat Config.CMD_W row.pattern)

/-- Every row masks OP alone and matches its OP value there. -/
theorem opcodeTable_fields : ∀ row ∈ opcodeTable,
    BitVec.ofNat Config.CMD_W row.mask = Bundle.make 0b111#3 0 0 ∧
    BitVec.ofNat Config.CMD_W row.pattern = Bundle.make row.op 0 0 := by decide

/-- A bundle matches a row of the table exactly if its OP is that of the row (R61). -/
theorem matches_iff {row : OpcodeRow} (h : row ∈ opcodeTable) (c : Bundle) :
    row.matches c = true ↔ row.op = c.op := by
  obtain ⟨hmask, hpattern⟩ := opcodeTable_fields row h
  rw [OpcodeRow.matches, decide_eq_true_iff, hmask, hpattern, and_opMask]
  exact ⟨fun heq => by simpa using (congrArg Bundle.op heq).symm, fun heq => by rw [heq]⟩

/-- The mnemonic of a command depends on its OP alone. -/
theorem mnemonic_commandOf (op : OpWord) (a b : Word) :
    (commandOf op a b).mnemonic = (commandOf op 0 0).mnemonic := by
  rcases op_cases op with h | h | h | h | h | h | h | h <;> subst h <;> rfl

/-- Each OP value has one row, that of its command (R61). -/
theorem exists_unique_row : ∀ op : OpWord, ∃ row ∈ opcodeTable, row.op = op ∧
    row.mnemonic = (commandOf op 0 0).mnemonic ∧ ∀ other ∈ opcodeTable, other.op = op → other = row := by
  decide

/-- Settles O5: a row matches by its OP value, and each OP value has one row. -/
theorem everyBundleMatchesOneTableRow : Obligations.EveryBundleMatchesOneTableRow := by
  intro c
  obtain ⟨row, hmem, hop, hname, hunique⟩ := exists_unique_row c.op
  exact ⟨row, hmem, (matches_iff hmem c).2 hop, hname.trans (mnemonic_commandOf _ _ _).symm,
    fun other hother hmatch => hunique other hother ((matches_iff hother c).1 hmatch)⟩

/-- Settles O1, by evaluation of the decoder on the nine numbers. -/
theorem commandWordsOfTheSpecDecode : Obligations.CommandWordsOfTheSpecDecode := by
  unfold Obligations.CommandWordsOfTheSpecDecode
  decide

end Sys2Proof

/-! ## 10_state.md R20 and R25, 20_memory.md R48, 70_reset_and_hazards.md R171 and R175: runs of edges

An edge moves the ports on whatever it does to the registers. Runs are taken edge by edge: a quiet edge
keeps the result, and a command's commit reads no register, so the last command of a run alone shows. -/

namespace Sys2Proof.Machine

section TakeEdge

variable {W : Nat} {s : State.Block W}

/-- The levels that the host drives next come to stand on the ports. -/
theorem takeEdge_of_cons {p : Ports W} {ps : List (Ports W)} (h : s.later = p :: ps) :
    s.takeEdge = { s with ports := p, later := ps } := by
  simp only [State.Block.takeEdge, h, List.headD_cons, List.tail_cons]

/-- The host that drives nothing more is idle (log entry 1). -/
theorem takeEdge_of_nil (h : s.later = []) : s.takeEdge = { s with ports := Ports.idle } := by
  simp only [State.Block.takeEdge, h, List.headD_nil, List.tail_nil]

end TakeEdge

/-- Every edge moves the ports on alike: no kind of edge touches them (log entry 1). -/
theorem step_ports {s t : State} (h : step s = .next t) :
    t.ports = s.takeEdge.ports ∧ t.later = s.takeEdge.later := by
  obtain ⟨-, rfl⟩ | ⟨-, -, rfl⟩ | ⟨-, -, rfl⟩ := step_cases h
  · exact ⟨rfl, rfl⟩
  · exact ⟨commit_ports _ _, commit_later _ _⟩
  · exact ⟨rfl, rfl⟩

/-- Settles O10: the ports after an edge are those that `takeEdge` leaves. -/
theorem everyEdgeTakesTheNextLevels : Obligations.EveryEdgeTakesTheNextLevels := by
  intro s t h
  obtain ⟨hports, hlater⟩ := step_ports h
  refine ⟨fun p ps hcons => ?_, fun hnil => ?_⟩
  · rw [hports, hlater, takeEdge_of_cons hcons]
    exact ⟨rfl, rfl⟩
  · rw [hports, hlater, takeEdge_of_nil hnil]
    exact ⟨rfl, hnil⟩

/-- Settles O6: an accepting edge is `exec` on the state that `takeEdge` leaves. -/
theorem stepRunsThePresentedCommand : Obligations.StepRunsThePresentedCommand := by
  intro s i hr hv _ hdecode
  have hstep : step s = exec i s.takeEdge := by rw [step_accept hr hv, Ports.bundle, hdecode]
  exact ⟨fun p ps hcons => by rw [hstep, takeEdge_of_cons hcons],
    fun hnil => by rw [hstep, takeEdge_of_nil hnil]⟩

/-- Settles O13: a command is a commit, which sets RSP_VALID and leaves the ports. -/
theorem commandsCompleteAndKeepThePorts : Obligations.CommandsCompleteAndKeepThePorts :=
  fun i s => ⟨_, exec_eq i s, commit_rspValid _ _, commit_ports _ _, commit_later _ _⟩

/-- Settles O12, by induction on the number of edges. -/
theorem everyRunCompletes : Obligations.EveryRunCompletes := by
  intro n
  induction n with
  | zero => exact fun s => ⟨s, rfl⟩
  | succ n ih =>
    intro s
    obtain ⟨t, hstep⟩ := exists_step_next s
    obtain ⟨u, hrun⟩ := ih t
    exact ⟨u, (run_succ n hstep).trans hrun⟩

/-- The levels of an idle edge: no reset and no command (70_reset_and_hazards.md R178). -/
def PortLevels.Quiet {W : Nat} (p : Ports W) : Prop := p.rst = false ∧ p.cmdValid = false

/-- The edges that a state will see are those it was to see after its next one: idle levels are quiet, so
past the end of the list too. -/
theorem quiet_takeEdge {W k : Nat} {s : State.Block W} (h : ∀ p ∈ s.later.take k, PortLevels.Quiet p) :
    ∀ p ∈ (s.takeEdge.ports :: s.takeEdge.later).take k, PortLevels.Quiet p := by
  cases hl : s.later with
  | nil =>
    rw [takeEdge_of_nil hl]
    intro p hp
    have hp' := List.mem_of_mem_take hp
    rw [hl, List.mem_singleton] at hp'
    exact hp' ▸ ⟨rfl, rfl⟩
  | cons q qs =>
    rw [takeEdge_of_cons hl]
    exact hl ▸ h

/-- Quiet edges hold the result, and RSP_VALID falls with the first of them (70_reset_and_hazards.md
R175, R178). -/
theorem run_quiet (k : Nat) : ∀ s : State, (∀ p ∈ (s.ports :: s.later).take k, PortLevels.Quiet p) →
    ∃ t, Sys2Proof.core.run k s = .next t ∧ t.SameResult s ∧
      (t.rspValid = true ↔ k = 0 ∧ s.rspValid = true) := by
  induction k with
  | zero => exact fun s _ => ⟨s, rfl, SameResult.refl s, by simp⟩
  | succ k ih =>
    intro s h
    rw [List.take_succ_cons, List.forall_mem_cons] at h
    obtain ⟨⟨hr, hv⟩, hlater⟩ := h
    obtain ⟨t, hrun, hsame, hvalid⟩ := ih s.takeEdge.idleEdge (quiet_takeEdge hlater)
    exact ⟨t, (run_succ k (step_idle hr hv)).trans hrun,
      SameResult.trans hsame (takeEdge_idleEdge_sameResult s), by simpa using hvalid⟩

/-- Settles O15: the accepting edge commits the command's outcome, and the quiet edges after it hold
it. -/
theorem resultIsHeldUntilTheNextCommand : Obligations.ResultIsHeldUntilTheNextCommand := by
  intro s i k hports _ hquiet
  obtain ⟨t, hrun, hsame, hvalid⟩ := run_quiet k (s.takeEdge.commit (resultOf i)) (by
    rw [commit_ports, commit_later]
    exact quiet_takeEdge hquiet)
  exact ⟨t, _, (run_succ k (step_present hports)).trans hrun, exec_eq i s,
    SameResult.trans hsame (commit_sameResult _ _ _), by simpa using hvalid⟩

/-- The last of the commands presented back to back is the one whose outcome shows (20_memory.md R48). -/
theorem run_backToBack (before : List Instr) (i : Instr) (rest : List Ports) : ∀ s : State,
    s.ports :: s.later = (before ++ [i]).map (fun j => Ports.present (encode j)) ++ rest →
    ∃ t, Sys2Proof.core.run (before.length + 1) s = .next t ∧ t.SameResult (s.commit (resultOf i)) ∧
      t.rspValid = true := by
  induction before with
  | nil =>
    intro s h
    have hports : s.ports = Ports.present (encode i) := (List.cons.inj h).1
    exact ⟨_, run_succ 0 (step_present hports), commit_sameResult _ _ _, commit_rspValid _ _⟩
  | cons j js ih =>
    intro s h
    obtain ⟨hports, hlater⟩ := List.cons.inj h
    obtain ⟨p, ps, hcons⟩ : ∃ p ps, s.later = p :: ps :=
      List.exists_cons_of_ne_nil (by rw [hlater]; simp)
    obtain ⟨t, hrun, hsame, hvalid⟩ := ih (s.takeEdge.commit (resultOf j)) (by
      rw [commit_ports, commit_later, takeEdge_of_cons hcons]
      exact hcons.symm.trans hlater)
    exact ⟨t, (run_succ _ (step_present hports)).trans hrun,
      SameResult.trans hsame (commit_sameResult _ _ _), hvalid⟩

/-- Settles O16: `exec` of the last command writes what the run shows. -/
theorem backToBackCommandsTakeEffectInOrder : Obligations.BackToBackCommandsTakeEffectInOrder := by
  intro before i rest s h
  obtain ⟨t, hrun, hsame, hvalid⟩ := run_backToBack before i rest s h
  exact ⟨t, _, hrun, exec_eq i s, hsame, hvalid⟩

end Sys2Proof.Machine

/-! ## 20_memory.md R51: several instances

An edge of one instance steps its block and leaves the others where they are. -/

namespace Sys2Proof.Machine

/-- A position with no instance has no edge. -/
theorem instanceEdge_of_none {k : Nat} {blocks : List State} (h : blocks[k]? = none) :
    instanceEdge k blocks = .next blocks := by
  simp only [instanceEdge, h]

/-- The edge of an instance is a step of its block. -/
theorem instanceEdge_of_some {k : Nat} {blocks : List State} {s t : State} (h : blocks[k]? = some s)
    (hstep : step s = .next t) : instanceEdge k blocks = .next (blocks.set k t) := by
  simp only [instanceEdge, h, hstep]

/-- Everything an edge of one instance does: its block takes a step, and every other block stays. -/
theorem instanceEdge_next (k : Nat) (blocks : List State) :
    ∃ blocks', instanceEdge k blocks = .next blocks' ∧ blocks'.length = blocks.length ∧
      (∀ s, blocks[k]? = some s → ∃ t, step s = .next t ∧ blocks'[k]? = some t) ∧
      ∀ j, j ≠ k → blocks'[j]? = blocks[j]? := by
  cases hk : blocks[k]? with
  | none => exact ⟨blocks, instanceEdge_of_none hk, rfl, by simp, fun _ _ => rfl⟩
  | some s =>
    obtain ⟨t, hstep⟩ := exists_step_next s
    obtain ⟨hlt, -⟩ := List.getElem?_eq_some_iff.1 hk
    refine ⟨blocks.set k t, instanceEdge_of_some hk hstep, List.length_set, fun s' hs' => ?_,
      fun j hj => List.getElem?_set_ne hj.symm⟩
    cases hs'
    exact ⟨t, hstep, List.getElem?_set_self hlt⟩

/-- Settles O57, by induction on the edges: the first edge is a step of the instance it belongs to, and
counts for no other. -/
theorem instancesRunIndependently : Obligations.InstancesRunIndependently := by
  intro edges
  induction edges with
  | nil => exact fun blocks => ⟨blocks, rfl, rfl, fun k s hs => ⟨s, rfl, hs⟩⟩
  | cons k ks ih =>
    intro blocks
    obtain ⟨mid, hedge, hlen, hself, hothers⟩ := instanceEdge_next k blocks
    obtain ⟨blocks', hedges, hlen', hrun⟩ := ih mid
    refine ⟨blocks', by rw [instanceEdges, hedge]; exact hedges, hlen'.trans hlen, fun j s hs => ?_⟩
    by_cases hj : j = k
    · subst hj
      obtain ⟨t, hstep, ht⟩ := hself s hs
      rw [List.count_cons_self, run_succ _ hstep]
      exact hrun j t ht
    · rw [List.count_cons_of_ne (Ne.symm hj)]
      exact hrun j s ((hothers j hj).trans hs)

end Sys2Proof.Machine

/-! ## 10_state.md R23, R25 and R28, 60_exceptions.md R151: the invariants

Both invariants speak of RES, SIZE and STATUS through `SameResult`, so each is three small facts: the reset
values have it, a commit establishes it, and an idle edge carries it over. A commit establishes `Inv`
because a success is a code word or has size 0. -/

namespace Sys2Proof.Machine

/-- A MAPN that succeeds gives size 0, at every width (42_signmap.md R133). -/
theorem mapnResult_ok_size {w : Nat} {val : Int} {v : Result} (h : mapnResult w val = .ok v) :
    v.size = 0 := by
  rw [mapnResult_ok_eq h]
  rfl

/-- A success at any width is a code word, of GR or EG, or has size 0, of a map command. -/
theorem outcomeOf_ok_cases {W : Nat} {op : OpWord} {a b : Word W} {v : Result}
    (h : outcomeOf op a b = .ok v) : v.IsCodeWord W ∨ v.size = 0 := by
  obtain rfl | rfl | rfl | rfl | rfl | rfl | rfl | rfl := op_cases op
  · exact .inl (golomb_ok_isCodeWord h)
  · exact .inl (expGolomb_ok_isCodeWord h)
  · exact .inr (mapnResult_ok_size h)
  · cases h; exact .inr rfl
  · cases h; exact .inr rfl
  · cases h
  · cases h
  · cases h

section Inv

variable {W : Nat}

theorem inv_of_size_eq_zero {s : State.Block W} (hsize : s.size = 0)
    (hres : s.status ≠ Status.ok.code → s.res = 0) : s.Inv :=
  ⟨by simp [hsize], fun hne => ⟨hres hne, hsize⟩, fun hne => absurd hsize hne⟩

theorem Inv.of_sameResult {s t : State.Block W} (h : s.SameResult t) (ht : t.Inv) : s.Inv := by
  obtain ⟨hres, hsize, hstatus⟩ := h
  unfold State.Block.Inv
  rw [hres, hsize, hstatus]
  exact ht

/-- The reset values have the invariant (70_reset_and_hazards.md R170). -/
theorem resetEdge_inv (s : State.Block W) : s.resetEdge.Inv :=
  inv_of_size_eq_zero rfl fun _ => rfl

theorem commit_codeWord_inv {v : Result} (hv : v.IsCodeWord W) (s : State.Block W) :
    (s.commit (.ok v)).Inv := by
  obtain ⟨hres, hsize⟩ := toNat_commit_codeWord hv s
  obtain ⟨-, hW, hpos, hlt⟩ := hv
  unfold State.Block.Inv uint
  rw [hres, hsize]
  exact ⟨hW, fun hne => absurd rfl hne, fun _ => ⟨hpos, hlt⟩⟩

/-- Every command establishes the invariant, from any state. -/
theorem commit_outcomeOf_inv (op : OpWord) (a b : Word W) (s : State.Block W) :
    (s.commit (outcomeOf op a b)).Inv := by
  cases h : outcomeOf op a b with
  | error e => exact inv_of_size_eq_zero rfl fun _ => rfl
  | ok v =>
    obtain hv | hzero := outcomeOf_ok_cases h
    · exact commit_codeWord_inv hv s
    · exact inv_of_size_eq_zero (by simp [hzero]) fun hne => absurd rfl hne

/-- Every edge of a block of any width keeps the invariant. -/
theorem stepAt_keeps_inv {s t : State.Block W} (hs : s.Inv) (h : stepAt s = .next t) : t.Inv := by
  obtain ⟨-, rfl⟩ | ⟨-, -, rfl⟩ | ⟨-, -, rfl⟩ := stepAt_cases h
  · exact resetEdge_inv _
  · exact commit_outcomeOf_inv _ _ _ _
  · exact Inv.of_sameResult (takeEdge_idleEdge_sameResult s) hs

theorem resetAt_inv (W : Nat) : (State.resetAt W).Inv := inv_of_size_eq_zero rfl fun _ => rfl

end Inv

/-- Settles O59: reset has the invariant and `stepAt_keeps_inv` keeps it. -/
theorem everyWidthKeepsTheRegisterInvariant : Obligations.EveryWidthKeepsTheRegisterInvariant :=
  fun W => ⟨resetAt_inv W, fun _ _ => stepAt_keeps_inv⟩

/-- Settles O19: the machine is the block at the normative width. -/
theorem everyStepKeepsTheRegisterInvariant : Obligations.EveryStepKeepsTheRegisterInvariant :=
  fun s _ hs h => stepAt_keeps_inv hs (step_eq_stepAt s ▸ h)

/-! The registers explained. -/

/-- After a commit the registers show the command, whatever the state before (20_memory.md R48). -/
theorem commit_shows (i : Instr) (s : State) : (s.commit (resultOf i)).Shows i :=
  ⟨s, _, exec_eq i s, SameResult.refl _⟩

theorem Shows.of_sameResult {s t : State} {i : Instr} (h : s.SameResult t) (ht : t.Shows i) :
    s.Shows i := by
  obtain ⟨before, after, hexec, hsame⟩ := ht
  exact ⟨before, after, hexec, SameResult.trans h hsame⟩

/-- The reset values are explained (70_reset_and_hazards.md R170). -/
theorem explained_of_reset {s : State} (h : s.SameResult State.reset) (hvalid : s.rspValid = false) :
    s.Explained :=
  ⟨.inl h, fun htrue => absurd htrue (by simp [hvalid])⟩

theorem resetEdge_sameResult_reset (s : State) : s.resetEdge.SameResult State.reset := ⟨rfl, rfl, rfl⟩

theorem resetEdge_explained (s : State) : s.resetEdge.Explained :=
  explained_of_reset (resetEdge_sameResult_reset s) rfl

theorem commit_explained (i : Instr) (s : State) : (s.commit (resultOf i)).Explained :=
  ⟨.inr ⟨i, commit_shows i s⟩, fun _ => ⟨i, commit_shows i s⟩⟩

/-- An idle edge leaves the explanation that there was, and RSP_VALID = 0. -/
theorem idleEdge_explained {s : State} (hs : s.Explained) : s.takeEdge.idleEdge.Explained := by
  have hsame := takeEdge_idleEdge_sameResult s
  obtain ⟨hreset | ⟨i, hshows⟩, -⟩ := hs
  · exact explained_of_reset (SameResult.trans hsame hreset) rfl
  · exact ⟨.inr ⟨i, Shows.of_sameResult hsame hshows⟩, fun htrue => absurd htrue (by simp)⟩

/-- Settles O20, by the three kinds of edge. -/
theorem everyStepKeepsTheRegistersExplained : Obligations.EveryStepKeepsTheRegistersExplained := by
  intro s t hs h
  obtain ⟨-, rfl⟩ | ⟨-, -, rfl⟩ | ⟨-, -, rfl⟩ := step_cases h
  · exact resetEdge_explained _
  · exact commit_explained _ _
  · exact idleEdge_explained hs

/-- Settles O17: the reset values, and both invariants of them. -/
theorem resetStateIsGood : Obligations.ResetStateIsGood :=
  ⟨rfl, rfl, rfl, rfl, resetAt_inv Config.W, explained_of_reset (SameResult.refl _) rfl⟩

/-- Settles O18: a reset edge leaves the reset values from any state, the free values of power-on among
them. -/
theorem resetEdgeEstablishesTheInvariants : Obligations.ResetEdgeEstablishesTheInvariants := by
  refine ⟨fun s t hr h => ?_, fun draw p later hr => ?_⟩
  · obtain rfl := step_reset_next hr h
    exact ⟨resetEdge_inv _, resetEdge_explained _⟩
  · exact ⟨_, step_reset hr, resetEdge_sameResult_reset _, rfl⟩

end Sys2Proof.Machine

/-! ## 00_scope.md R7: the block at every width

The machine is the block at W = 64. At every width an exact result fits the registers: a code word by
`Result.IsCodeWord`, a mapped value by the range `-2^(W-1) <= val < 2^(W-1)` of its operand. -/

namespace Sys2Proof.Machine

/-- Settles O58: the parameters, the bundle's fields at every width, and the machine as the block at
the normative one. -/
theorem machineIsTheBlockAtTheNormativeWidth : Obligations.MachineIsTheBlockAtTheNormativeWidth := by
  refine ⟨⟨rfl, by decide, rfl, rfl, rfl, rfl⟩,
    fun W => ⟨sizeWidth_eq_bitlen W, ?_, lt_two_pow_bitlen W⟩,
    fun W op b a c => ⟨⟨op_make op b a, b_make op b a, a_make op b a⟩, make_fields c⟩,
    exec_eq_performAt, step_eq_stepAt, rfl⟩
  unfold Config.cmdWidth
  omega

/-- A mapped value in the range of RES is written as it is. -/
theorem mapped_value_lt {w : Nat} {x : Int} (hnonneg : 0 ≤ x) (hle : x ≤ 2 ^ w - 1) :
    (mapped x).value < 2 ^ w := by
  have hcast : ((2 ^ w : Nat) : Int) = 2 ^ w := by push_cast; rfl
  show x.toNat < 2 ^ w
  omega

/-- A MAPN that succeeds gives a value that fits RES (42_signmap.md R130). -/
theorem mapnResult_ok_value_lt {w : Nat} {val : Int} {v : Result} (h : mapnResult w val = .ok v) :
    v.value < 2 ^ w := by
  have hle : ¬ 2 ^ w - 1 < mapNormal val := fun hlt => by
    rw [mapnResult, if_pos hlt] at h
    cases h
  rw [mapnResult_ok_eq h]
  exact mapped_value_lt (mapNormal_nonneg val) (Int.not_lt.1 hle)

section Fits

variable {w : Nat} {val : Int}

/-- Doubling fills the width (42_signmap.md R138). -/
theorem two_mul_two_pow_pred (hw : 1 ≤ w) : 2 * (2 : Int) ^ (w - 1) = 2 ^ w := by
  rw [← pow_succ', Nat.sub_add_cancel hw]

variable (hw : 1 ≤ w) (hlo : -2 ^ (w - 1) ≤ val) (hhi : val < 2 ^ (w - 1))
include hw hlo hhi

theorem mapRegular_le : mapRegular val ≤ 2 ^ w - 1 := by
  have hpow := two_mul_two_pow_pred hw
  have hcases := mapRegular_cases val
  omega

theorem mapSpecial_le : mapSpecial val ≤ 2 ^ w - 1 := by
  have hpow := two_mul_two_pow_pred hw
  have hcases := mapSpecial_cases val
  omega

/-- MAPN overflows for the most negative value alone (42_signmap.md R130). -/
theorem mapNormal_le_iff : mapNormal val ≤ 2 ^ w - 1 ↔ val ≠ -2 ^ (w - 1) := by
  have hpow := two_mul_two_pow_pred hw
  have hcases := mapNormal_cases val
  omega

end Fits

/-- Settles O26: the coders give code words, and the mapped values lie in the range of RES. -/
theorem resultsFitEveryWidth : Obligations.ResultsFitEveryWidth := by
  intro w data p val r
  refine ⟨?_, fun h => ⟨mapnResult_ok_size h, mapnResult_ok_value_lt h⟩, fun hw hlo hhi => ⟨?_, ?_⟩⟩
  · rintro (h | h)
    · exact golomb_ok_isCodeWord h
    · exact expGolomb_ok_isCodeWord h
  · have hle := mapRegular_le hw hlo hhi
    exact ⟨mapRegular_nonneg val, hle, rfl, mapped_value_lt (mapRegular_nonneg val) hle⟩
  · have hle := mapSpecial_le hw hlo hhi
    exact ⟨mapSpecial_nonneg val, hle, rfl, mapped_value_lt (mapSpecial_nonneg val) hle⟩

end Sys2Proof.Machine

/-! ## 00_scope.md R7 and R10: what a command of any width writes

A command commits its outcome (`performAt_eq`). A code word and a mapped value that fit are written as they
are, and an error is the error write. -/

namespace Sys2Proof.Machine

section Perform

variable {W : Nat} {op : OpWord} {a b : Word W}

theorem performAt_of_ok {v : Result} (h : outcomeOf op a b = .ok v) (s : State.Block W) :
    performAt op a b s = .next { s with
      res := BitVec.ofNat W v.value, size := BitVec.ofNat (Config.sizeWidth W) v.size
      status := 0b00#2, rspValid := true } := by
  rw [performAt_eq, h]
  rfl

theorem performAt_of_error {e : CmdError} (h : outcomeOf op a b = .error e) (s : State.Block W) :
    performAt op a b s = .next { s with
      res := 0#W, size := 0#_, status := e.status.code, rspValid := true } := by
  rw [performAt_eq, h]
  rfl

/-- A code word fits RES, and its size SIZE. -/
theorem performAt_of_codeWord {v : Result} (h : outcomeOf op a b = .ok v) (hv : v.IsCodeWord W)
    (s : State.Block W) :
    v.value < 2 ^ W ∧ v.size < 2 ^ Config.sizeWidth W ∧
    performAt op a b s = .next { s with
      res := BitVec.ofNat W v.value, size := BitVec.ofNat (Config.sizeWidth W) v.size
      status := 0b00#2, rspValid := true } := by
  obtain ⟨-, hW, -, hlt⟩ := hv
  exact ⟨hlt.trans_le (Nat.pow_le_pow_right (by decide) hW), hW.trans_lt (lt_two_pow_bitlen W),
    performAt_of_ok h s⟩

/-- A mapped value that fits RES is written as it is, with SIZE 0 (42_signmap.md R133). -/
theorem performAt_of_mapped {x : Int} {n : Nat} (h : outcomeOf op a b = .ok (mapped x))
    (hn : (n : Int) = x) (hle : x ≤ 2 ^ W - 1) (s : State.Block W) :
    n < 2 ^ W ∧ performAt op a b s = .next { s with
      res := BitVec.ofNat W n, size := 0#_, status := 0b00#2, rspValid := true } := by
  subst hn
  exact ⟨mapped_value_lt (Int.natCast_nonneg n) hle, performAt_of_ok h s⟩

end Perform

section Meanings

variable {W : Nat} {a b : Word W} (s : State.Block W)

theorem outcomeOf_gr {m : Nat} (hb : b.toInt = m) :
    outcomeOf 0b000#3 a b = golomb W .zerosThenOne a.toNat (m : Int) := hb ▸ rfl

theorem outcomeOf_eg {k : Nat} (hb : b.toInt = k) :
    outcomeOf 0b001#3 a b = expGolomb W a.toNat (k : Int) := hb ▸ rfl

/-- GR of a block of width W, on the two sides of the width (40_golomb.md R86, R87). -/
theorem performAt_gr {m e q r rbits rcode : Nat} (hb : b.toInt = m) (lo : 2 ^ e ≤ m)
    (hi : m < 2 ^ (e + 1)) (hd : a.toNat = q * m + r) (hr : r < m)
    (hrb : rbits = if r < 2 ^ (e + 1) - m then e else e + 1)
    (hrc : rcode = if r < 2 ^ (e + 1) - m then r else r + (2 ^ (e + 1) - m)) :
    (q + 1 + rbits ≤ W →
      2 ^ rbits + rcode < 2 ^ W ∧ q + 1 + rbits < 2 ^ Config.sizeWidth W ∧
      performAt 0b000#3 a b s = .next { s with
        res := BitVec.ofNat W (2 ^ rbits + rcode)
        size := BitVec.ofNat (Config.sizeWidth W) (q + 1 + rbits)
        status := 0b00#2, rspValid := true }) ∧
    (W < q + 1 + rbits → performAt 0b000#3 a b s
      = .next { s with res := 0#W, size := 0#_, status := 0b10#2, rspValid := true }) := by
  obtain ⟨-, hg⟩ := golomb_eq (w := W) lo hi hd hr hrb hrc
  refine ⟨fun hfit => ?_, fun hover => ?_⟩
  · rw [if_neg (Nat.not_lt.2 hfit)] at hg
    exact performAt_of_codeWord ((outcomeOf_gr hb).trans hg) (golomb_ok_isCodeWord hg) s
  · rw [if_pos hover] at hg
    exact performAt_of_error ((outcomeOf_gr hb).trans hg) s

/-- EG of a block of width W, on the two sides of the width (41_expgolomb.md R115, R116). -/
theorem performAt_eg {k len size : Nat} (hb : b.toInt = k) (lo : 2 ^ len ≤ a.toNat + 2 ^ k)
    (hi : a.toNat + 2 ^ k < 2 ^ (len + 1)) (hs : size + k + 1 = 2 * (len + 1)) :
    (size ≤ W →
      a.toNat + 2 ^ k < 2 ^ W ∧ size < 2 ^ Config.sizeWidth W ∧
      performAt 0b001#3 a b s = .next { s with
        res := BitVec.ofNat W (a.toNat + 2 ^ k), size := BitVec.ofNat (Config.sizeWidth W) size
        status := 0b00#2, rspValid := true }) ∧
    (W < size → performAt 0b001#3 a b s
      = .next { s with res := 0#W, size := 0#_, status := 0b10#2, rspValid := true }) := by
  have hg := expGolomb_eq_of_parts (w := W) lo hi hs
  refine ⟨fun hfit => ?_, fun hover => ?_⟩
  · rw [if_neg (Nat.not_lt.2 hfit)] at hg
    exact performAt_of_codeWord ((outcomeOf_eg hb).trans hg) (expGolomb_ok_isCodeWord hg) s
  · rw [if_pos hover] at hg
    exact performAt_of_error ((outcomeOf_eg hb).trans hg) s

/-- MAPN of a block of width W, for its one Overflow and for the rest (42_signmap.md R130). -/
theorem performAt_mapn (hW : 1 ≤ W) {n : Nat} (hn : (n : Int) = mapNormal a.toInt) :
    (a.toInt ≠ -2 ^ (W - 1) → n < 2 ^ W ∧ performAt 0b010#3 a b s = .next { s with
      res := BitVec.ofNat W n, size := 0#_, status := 0b00#2, rspValid := true }) ∧
    (a.toInt = -2 ^ (W - 1) → performAt 0b010#3 a b s
      = .next { s with res := 0#W, size := 0#_, status := 0b10#2, rspValid := true }) := by
  obtain ⟨hlo, hhi⟩ := sint_bounds a
  have hfits := mapNormal_le_iff hW hlo hhi
  refine ⟨fun hne => ?_, fun hmin => ?_⟩
  · have hle := hfits.2 hne
    exact performAt_of_mapped (op := 0b010#3) (if_neg (Int.not_lt.2 hle)) hn hle s
  · have hover : 2 ^ W - 1 < mapNormal a.toInt := Int.not_le.1 fun hle => hfits.1 hle hmin
    exact performAt_of_error (op := 0b010#3) (if_pos hover) s

theorem outcomeOf_reserved {op : OpWord} (hop : op = 0b101#3 ∨ op = 0b110#3 ∨ op = 0b111#3) :
    outcomeOf op a b = .error .illegalOp := by
  obtain rfl | rfl | rfl := hop <;> rfl

end Meanings

/-- Settles O60, command by command; the mapped values by the two branches of each mapping. -/
theorem everyWidthWritesExactResults : Obligations.EveryWidthWritesExactResults := by
  intro W a b s hW
  obtain ⟨hlo, hhi⟩ := sint_bounds a
  refine ⟨fun m e q r rbits rcode => performAt_gr s, fun k len size => performAt_eg s,
    fun op hop => performAt_of_error (outcomeOf_reserved hop) s,
    ⟨fun hneg => performAt_of_error (op := 0b000#3) (golomb_nonPositive hneg) s,
      fun hneg => performAt_of_error (op := 0b001#3) (expGolomb_negative hneg) s⟩,
    fun n hnonpos hpos => performAt_mapn s hW ?_,
    fun n hnonneg hneg =>
      performAt_of_mapped (op := 0b011#3) rfl ?_ (mapRegular_le hW hlo hhi) s,
    fun n hnonneg hneg =>
      performAt_of_mapped (op := 0b100#3) rfl ?_ (mapSpecial_le hW hlo hhi) s⟩
  · have hcases := mapNormal_cases a.toInt
    omega
  · have hcases := mapRegular_cases a.toInt
    show (n : Int) = mapRegular a.toInt
    omega
  · have hcases := mapSpecial_cases a.toInt
    show (n : Int) = mapSpecial a.toInt
    omega

end Sys2Proof.Machine

/-! ## 30_encoding.md R68: the signed sequences

The edge that accepts an issued command leaves what `exec` leaves, so a sequence is two `exec`s. A commit
reads no register, so the encode ends as if the map command had not been there, but for the value that the
host read from RES. -/

namespace Sys2Proof.Machine

/-- Issuing a command is `exec`: what the host was to drive stands on the ports again (log entry 12). -/
theorem issue_eq_exec (i : Instr) (s : State) : issue i s = exec i s := by
  have hports : (s.offer i).ports = Ports.present (encode i) := rfl
  rw [issue, step_present hports, exec_eq]
  rfl

/-- A command's end does not depend on the command before it (20_memory.md R48). -/
theorem exec_commit (i : Instr) (r : Except CmdError Result) (s : State) :
    exec i (s.commit r) = exec i s := by
  rw [exec_eq, exec_eq, commit_congr _ (commit_ports r s) (commit_later r s)]

section Sequence

variable {e : EncoderName} {m : MapName} {v p : Word} (s : State)

/-- Where the map command fails no encode is issued (30_encoding.md R68). -/
theorem signedSequence_of_error {err : CmdError} (h : resultOf (mapCommand m v) = .error err) :
    signedSequence e m v p s = .next (s.writeError err) := by
  have hstatus : (s.writeError err).rspStatus ≠ Status.ok.code := error_status_ne_ok err
  simp only [signedSequence, issue_eq_exec, exec_eq, h, commit_error, if_neg hstatus]

/-- Where it succeeds the encode of the mapped value is issued (30_encoding.md R68). -/
theorem signedSequence_of_ok {r : Result} (h : resultOf (mapCommand m v) = .ok r) :
    signedSequence e m v p s = exec (encodeCommand e (zextW r.value) p) s := by
  have hmap : issue (mapCommand m v) s = .next (s.commit (.ok r)) := by rw [issue_eq_exec, exec_eq, h]
  have hstatus : (s.commit (.ok r)).rspStatus = Status.ok.code := rfl
  simp only [signedSequence, hmap, if_pos hstatus, issue_eq_exec, exec_commit]
  rfl

end Sequence

/-- The map command of a sequence succeeds, but for MAPN of the most negative value
(42_signmap.md R130 to R132). -/
theorem resultOf_mapCommand {m : MapName} {v : Word} (h : ¬ (m = .n ∧ v.toInt = -2 ^ 63)) :
    resultOf (mapCommand m v) = .ok (mapped (mapValue m v.toInt)) := by
  cases m with
  | n => exact mapnResult_ok fun hmin => h ⟨rfl, hmin⟩
  | r => rfl
  | s => rfl

/-- A mapped value fits the word that the encode reads it from. -/
theorem mapValue_lt {m : MapName} {v : Word} (h : ¬ (m = .n ∧ v.toInt = -2 ^ 63)) :
    mapValue m v.toInt < 2 ^ 64 := by
  obtain ⟨hregular, hspecial, hnormal⟩ := mapped_word_fits v
  cases m with
  | n =>
    have hlt := hnormal fun hmin => h ⟨rfl, hmin⟩
    show mapNormal v.toInt < 2 ^ 64
    omega
  | r => exact hregular
  | s => exact hspecial

/-- Settles O54, by the two ends of the map command. -/
theorem signedSequencesMapThenEncode : Obligations.SignedSequencesMapThenEncode := by
  intro e m v p s n hn
  refine ⟨?_, fun h => ?_⟩
  · rintro ⟨rfl, hmin⟩
    exact signedSequence_of_error (m := .n) s (mapnResult_overflow hmin)
  · rw [signedSequence_of_ok s (resultOf_mapCommand h), ← hn]
    rfl

/-- The reader of an encoder answers the data of a command that succeeded, whatever follows the code word
(40_golomb.md R94, 41_expgolomb.md R120). -/
theorem readCode_codeWord {e : EncoderName} {a p : Word} {s t : State} {param : Nat}
    (hp : p.toInt = param) (h : exec (encodeCommand e a p) s = .next t) (ht : t.status = 0b00#2)
    (rest : List Bool) : readCode e param (t.codeWord ++ rest) = some (a.toNat, rest) := by
  cases e with
  | gr => exact readGolomb_codeWord hp h ht rest
  | eg => exact readExpGolomb_codeWord hp h ht rest

/-- Settles O55: a sequence that ends with STATUS OK is the encode of the mapped value, which the reader
answers and the inverse mapping takes back. -/
theorem signedSequencesRoundTrip : Obligations.SignedSequencesRoundTrip := by
  intro e m v p s t param rest hp hseq ht
  have hmap := Int.toNat_of_nonneg (mapValue_nonneg m v.toInt)
  obtain ⟨hoverflow, hencode⟩ := signedSequencesMapThenEncode e m v p s _ hmap
  by_cases hmin : m = .n ∧ v.toInt = -2 ^ 63
  · rw [hoverflow hmin] at hseq
    cases hseq
    exact absurd ht (error_status_ne_ok .overflow)
  · rw [hencode hmin] at hseq
    have hlt : (mapValue m v.toInt).toNat < 2 ^ 64 := by have := mapValue_lt hmin; omega
    have hread := readCode_codeWord hp hseq ht rest
    rw [show (BitVec.ofNat 64 (mapValue m v.toInt).toNat).toNat = _ from toNat_zextW (W := 64) hlt] at hread
    exact ⟨_, hread, unmapValue_mapValue m v.toInt⟩

end Sys2Proof.Machine

/-! ## 30_encoding.md R67: the assembler

A line is refused or it spells a command (`assemble_of_wf`, `assemble_of_not_wf`), so the clauses of
the rule are three kinds of fact: which literals fit a place, what word a literal that fits becomes, and which places a
line has. -/

namespace Sys2Proof

/-! Which literals fit a place. -/

theorem fitsUnsigned_dec_iff {n : Int} :
    (AsmOperand.dec n).fitsUnsigned Config.W = true ↔ 0 ≤ n ∧ n < 2 ^ 64 := by
  rw [AsmOperand.fitsUnsigned, Bool.and_eq_true, decide_eq_true_iff, decide_eq_true_iff]

theorem fitsSigned_dec_iff {n : Int} :
    (AsmOperand.dec n).fitsSigned Config.W = true ↔ -2 ^ 63 ≤ n ∧ n < 2 ^ 63 := by
  rw [AsmOperand.fitsSigned, Bool.and_eq_true, decide_eq_true_iff, decide_eq_true_iff]
  exact Iff.rfl

/-- A reserved OP takes a literal of either range, as A and as B (log entry 7). -/
def AsmOperand.fitsEither (W : Nat) (o : AsmOperand) : Bool := o.fitsUnsigned W || o.fitsSigned W

section Places

variable {W op : Nat} (o : AsmOperand)

theorem fitsA_of_map (h : 2 ≤ op) (h' : op ≤ 4) : o.fitsA W op = o.fitsSigned W := by
  rw [AsmOperand.fitsA, if_neg (by omega), if_pos h']

theorem fitsA_of_reserved (h : 5 ≤ op) : o.fitsA W op = o.fitsEither W := by
  rw [AsmOperand.fitsA, if_neg (by omega), if_neg (by omega), AsmOperand.fitsEither]

theorem fitsB_of_defined (h : op ≤ 4) : o.fitsB W op = o.fitsSigned W := if_pos h

theorem fitsB_of_reserved (h : 5 ≤ op) : o.fitsB W op = o.fitsEither W := if_neg (by omega)

/-- The range of a hexadecimal word is the same in every place. -/
theorem fits_hex_iff {n : Nat} :
    ((AsmOperand.hex n).fitsA W op = true ↔ n < 2 ^ W) ∧
    ((AsmOperand.hex n).fitsB W op = true ↔ n < 2 ^ W) := by
  simp only [AsmOperand.fitsA, AsmOperand.fitsB, AsmOperand.fitsUnsigned, AsmOperand.fitsSigned,
    Bool.or_self, ite_self, decide_eq_true_iff, and_self]

end Places

theorem fitsEither_dec_iff {n : Int} :
    (AsmOperand.dec n).fitsEither Config.W = true ↔ -2 ^ 63 ≤ n ∧ n < 2 ^ 64 := by
  rw [AsmOperand.fitsEither, Bool.or_eq_true, fitsUnsigned_dec_iff, fitsSigned_dec_iff]
  omega

/-! Which lines are well formed. -/

section Lines

variable {a b : AsmOperand} {op : Nat}

theorem wf_gr_iff : (AsmLine.gr a b).wf = true ↔
    a.fitsUnsigned Config.W = true ∧ b.fitsSigned Config.W = true := Bool.and_eq_true_iff

theorem wf_eg_iff : (AsmLine.eg a b).wf = true ↔
    a.fitsUnsigned Config.W = true ∧ b.fitsSigned Config.W = true := Bool.and_eq_true_iff

theorem wf_mapn_iff : (AsmLine.mapn a).wf = true ↔ a.fitsSigned Config.W = true := Iff.rfl

theorem wf_mapr_iff : (AsmLine.mapr a).wf = true ↔ a.fitsSigned Config.W = true := Iff.rfl

theorem wf_maps_iff : (AsmLine.maps a).wf = true ↔ a.fitsSigned Config.W = true := Iff.rfl

theorem wf_cmd_iff : (AsmLine.cmd op a b).wf = true ↔
    op < 8 ∧ a.fitsA Config.W op = true ∧ b.fitsB Config.W op = true := by
  simp [AsmLine.wf, and_assoc]

end Lines

end Sys2Proof

namespace Sys2Proof.Machine

/-! What word a literal that fits becomes. -/

section Words

variable (r : Word)

theorem toNat_operandWord_dec {x : Int} (hlo : 0 ≤ x) (hhi : x < 2 ^ 64) :
    ((operandWord r (.dec x)).toNat : Int) = x := by
  have hword : operandWord r (.dec x) = zextW x.toNat := if_pos hlo
  rw [hword, toNat_zextW (W := 64) (by omega), Int.toNat_of_nonneg hlo]

theorem toInt_operandWord_dec {x : Int} (hlo : -2 ^ 63 ≤ x) (hhi : x < 2 ^ 63) :
    (operandWord r (.dec x)).toInt = x := by
  by_cases hnonneg : 0 ≤ x
  · have hnat := toNat_operandWord_dec r hnonneg (by omega)
    rw [BitVec.toInt_eq_toNat_cond, if_pos (by show _ < 2 ^ 64; omega), hnat]
  · have hword : operandWord r (.dec x) = sextW x := if_neg hnonneg
    rw [hword]
    exact BitVec.toInt_ofInt_eq_self (by decide) hlo hhi

theorem toNat_operandWord_hex {h : Nat} (hh : h < 2 ^ 64) : (operandWord r (.hex h)).toNat = h :=
  toNat_zextW (W := 64) hh

end Words

/-! What becomes of a line. -/

section Assemble

variable (r : Word) {line : AsmLine} {a b : AsmOperand} {op : Nat}

theorem assemble_of_wf (h : line.wf = true) : assemble r line = .ok (lineCommand r line) := if_pos h

theorem assemble_of_not_wf (h : ¬ line.wf = true) : assemble r line = .error .illFormedLine := if_neg h

theorem assemble_encoders (ha : a.fitsUnsigned Config.W = true) (hb : b.fitsSigned Config.W = true) :
    assemble r (.gr a b) = .ok (.gr (operandWord r a) (operandWord r b)) ∧
    assemble r (.eg a b) = .ok (.eg (operandWord r a) (operandWord r b)) :=
  ⟨assemble_of_wf r (wf_gr_iff.2 ⟨ha, hb⟩), assemble_of_wf r (wf_eg_iff.2 ⟨ha, hb⟩)⟩

theorem assemble_encoders_refuse
    (h : ¬ (a.fitsUnsigned Config.W = true ∧ b.fitsSigned Config.W = true)) :
    assemble r (.gr a b) = .error .illFormedLine ∧ assemble r (.eg a b) = .error .illFormedLine :=
  ⟨assemble_of_not_wf r (mt wf_gr_iff.1 h), assemble_of_not_wf r (mt wf_eg_iff.1 h)⟩

theorem assemble_encoders_refuse_a (h : ¬ a.fitsUnsigned Config.W = true) :
    assemble r (.gr a b) = .error .illFormedLine ∧ assemble r (.eg a b) = .error .illFormedLine :=
  assemble_encoders_refuse r fun ⟨ha, _⟩ => h ha

theorem assemble_encoders_refuse_b (h : ¬ b.fitsSigned Config.W = true) :
    assemble r (.gr a b) = .error .illFormedLine ∧ assemble r (.eg a b) = .error .illFormedLine :=
  assemble_encoders_refuse r fun ⟨_, hb⟩ => h hb

theorem assemble_maps (ha : a.fitsSigned Config.W = true) :
    assemble r (.mapn a) = .ok (.mapn (operandWord r a) 0) ∧
    assemble r (.mapr a) = .ok (.mapr (operandWord r a) 0) ∧
    assemble r (.maps a) = .ok (.maps (operandWord r a) 0) :=
  ⟨assemble_of_wf r (wf_mapn_iff.2 ha), assemble_of_wf r (wf_mapr_iff.2 ha),
    assemble_of_wf r (wf_maps_iff.2 ha)⟩

theorem assemble_maps_refuse (h : ¬ a.fitsSigned Config.W = true) :
    assemble r (.mapn a) = .error .illFormedLine ∧ assemble r (.mapr a) = .error .illFormedLine ∧
    assemble r (.maps a) = .error .illFormedLine :=
  ⟨assemble_of_not_wf r (mt wf_mapn_iff.1 h), assemble_of_not_wf r (mt wf_mapr_iff.1 h),
    assemble_of_not_wf r (mt wf_maps_iff.1 h)⟩

theorem assemble_cmd (hop : op < 8) (ha : a.fitsA Config.W op = true)
    (hb : b.fitsB Config.W op = true) : assemble r (.cmd op a b)
      = .ok (commandOf (BitVec.ofNat Config.OP_W op) (operandWord r a) (operandWord r b)) :=
  assemble_of_wf r (wf_cmd_iff.2 ⟨hop, ha, hb⟩)

theorem assemble_cmd_refuses
    (h : ¬ (op < 8 ∧ a.fitsA Config.W op = true ∧ b.fitsB Config.W op = true)) :
    assemble r (.cmd op a b) = .error .illFormedLine :=
  assemble_of_not_wf r (mt wf_cmd_iff.1 h)

theorem assemble_cmd_refuses_a (h : ¬ a.fitsA Config.W op = true) :
    assemble r (.cmd op a b) = .error .illFormedLine :=
  assemble_cmd_refuses r fun ⟨_, ha, _⟩ => h ha

theorem assemble_cmd_refuses_b (h : ¬ b.fitsB Config.W op = true) :
    assemble r (.cmd op a b) = .error .illFormedLine :=
  assemble_cmd_refuses r fun ⟨_, _, hb⟩ => h hb

end Assemble

/-- The bundle that a raw line of two hexadecimal words numbers (30_encoding.md R60). -/
theorem decode_ofNumber {op h : Nat} {v : Word} (hop : op < 8) (hv : v.toNat = h) :
    decode (BitVec.ofNat Config.CMD_W (op * 2 ^ 128 + h * 2 ^ 64 + h))
      = commandOf (BitVec.ofNat Config.OP_W op) v v := by
  have hlt : v.toNat < 2 ^ 64 := v.isLt
  have hwidth : Config.cmdWidth Config.W = 131 := rfl
  have hopFits : op % 2 ^ Config.OP_W = op := Nat.mod_eq_of_lt hop
  refine decode_of_toNat ?_
  rw [BitVec.toNat_ofNat, BitVec.toNat_ofNat, hv, hwidth, hopFits, Nat.mod_eq_of_lt (by omega)]

/-- Settles O56, clause by clause: each names the literals that fit or do not fit, and what the lines with
such literals give. -/
theorem assemblerWritesOperandsAsRead : Obligations.AssemblerWritesOperandsAsRead := by
  intro r x y h op a b
  refine ⟨fun hx hx' hy hy' => ?encoderDecimal, fun hy hy' => ?mapDecimal, ?res, fun hh => ?hex,
    fun hx => ?dataRange, fun hy => ?signedRange, ⟨rfl, rfl⟩, fun hx hx' hy hy' => ?rawMap,
    fun hop hop' hx => ?rawMapRange, fun hx hx' hy hy' => ?rawReserved, fun hop hx => ?rawReservedRange,
    fun hh => ?hexRange, fun hop => ?opRange⟩
  case encoderDecimal =>
    have hb := fitsSigned_dec_iff.2 ⟨hy, hy'⟩
    obtain ⟨hgr, heg⟩ := assemble_encoders r (fitsUnsigned_dec_iff.2 ⟨hx, hx'⟩) hb
    obtain ⟨hgrRes, hegRes⟩ := assemble_encoders r (a := .res) rfl hb
    exact ⟨_, _, toNat_operandWord_dec r hx hx', toInt_operandWord_dec r hy hy',
      hgr, heg, hgrRes, hegRes⟩
  case mapDecimal =>
    exact ⟨_, toInt_operandWord_dec r hy hy', assemble_maps r (fitsSigned_dec_iff.2 ⟨hy, hy'⟩)⟩
  case res =>
    obtain ⟨hgr, heg⟩ := assemble_encoders r (a := .res) (b := .res) rfl rfl
    exact ⟨hgr, heg, assemble_maps r (a := .res) rfl⟩
  case hex =>
    have hfits : decide (h < 2 ^ Config.W) = true := decide_eq_true hh
    have hword := toNat_operandWord_hex r hh
    obtain ⟨hgr, heg⟩ := assemble_encoders r (a := .hex h) (b := .hex h) hfits hfits
    obtain ⟨hmapn, hmapr, hmaps⟩ := assemble_maps r (a := .hex h) hfits
    refine ⟨_, hword, hgr, heg, hmapn, hmapr, hmaps, fun hop => ?_⟩
    rw [decode_ofNumber hop hword]
    exact assemble_cmd r hop (fits_hex_iff.1.2 hh) (fits_hex_iff.2.2 hh)
  case dataRange =>
    exact assemble_encoders_refuse_a r fun hfits => by
      have hrange := fitsUnsigned_dec_iff.1 hfits
      omega
  case signedRange =>
    have hfits : ¬ (AsmOperand.dec y).fitsSigned Config.W = true := fun hfits => by
      have hrange := fitsSigned_dec_iff.1 hfits
      omega
    obtain ⟨hgr, heg⟩ := assemble_encoders_refuse_b r (a := a) hfits
    exact ⟨hgr, heg, assemble_maps_refuse r hfits⟩
  case rawMap =>
    have ha := fitsSigned_dec_iff.2 ⟨hx, hx'⟩
    have hb := fitsSigned_dec_iff.2 ⟨hy, hy'⟩
    exact ⟨_, _, toInt_operandWord_dec r hx hx', toInt_operandWord_dec r hy hy',
      assemble_cmd (op := 2) r (by decide) ha hb, assemble_cmd (op := 3) r (by decide) ha hb,
      assemble_cmd (op := 4) r (by decide) ha hb⟩
  case rawMapRange =>
    have hfits : ¬ (AsmOperand.dec x).fitsSigned Config.W = true := fun hfits => by
      have hrange := fitsSigned_dec_iff.1 hfits
      omega
    exact ⟨assemble_cmd_refuses_a r (by rwa [fitsA_of_map _ hop hop']),
      assemble_cmd_refuses_b r (by rwa [fitsB_of_defined _ hop'])⟩
  case rawReserved =>
    have ha := fitsEither_dec_iff.2 ⟨hx, hx'⟩
    have hb := fitsEither_dec_iff.2 ⟨hy, hy'⟩
    exact ⟨_, _, fun hpos => toNat_operandWord_dec r hpos hx',
      fun hneg => toInt_operandWord_dec r hx (by omega), fun hpos => toNat_operandWord_dec r hpos hy',
      fun hneg => toInt_operandWord_dec r hy (by omega), assemble_cmd (op := 5) r (by decide) ha hb,
      assemble_cmd (op := 6) r (by decide) ha hb, assemble_cmd (op := 7) r (by decide) ha hb⟩
  case rawReservedRange =>
    have hfits : ¬ (AsmOperand.dec x).fitsEither Config.W = true := fun hfits => by
      have hrange := fitsEither_dec_iff.1 hfits
      omega
    exact ⟨assemble_cmd_refuses_a r (by rwa [fitsA_of_reserved _ hop]),
      assemble_cmd_refuses_b r (by rwa [fitsB_of_reserved _ hop])⟩
  case hexRange =>
    have hfits : ¬ decide (h < 2 ^ Config.W) = true :=
      mt of_decide_eq_true (Nat.not_lt.2 hh)
    obtain ⟨hgrA, hegA⟩ := assemble_encoders_refuse_a r (a := .hex h) (b := b) hfits
    obtain ⟨hgrB, hegB⟩ := assemble_encoders_refuse_b r (a := a) (b := .hex h) hfits
    obtain ⟨hmapn, hmapr, hmaps⟩ := assemble_maps_refuse r (a := .hex h) hfits
    exact ⟨hgrA, hgrB, hegA, hegB, hmapn, hmapr, hmaps,
      assemble_cmd_refuses_a r (mt fits_hex_iff.1.1 (Nat.not_lt.2 hh)),
      assemble_cmd_refuses_b r (mt fits_hex_iff.2.1 (Nat.not_lt.2 hh))⟩
  case opRange =>
    exact assemble_cmd_refuses r fun ⟨hlt, _⟩ => Nat.not_lt.2 hop hlt

end Sys2Proof.Machine
